-- ==== Sys2Proof/Word.lean ====
section
/-! DEFINITION. The words of the block: characters and bytes are both 8-bit values (spec/00_scope.md section 6). -/

namespace Sys2Proof

/-- A character on the wire and a byte of a store: 8 bits, bit 0 least significant (30_encoding.md R70). -/
abbrev Byte := BitVec 8

/-- Half a byte: what one hex digit stands for (30_encoding.md R73). -/
abbrev Nibble := BitVec 4

/-- The Plaintext/Ciphertext Block: a fixed 16-byte buffer, whatever KEY_LENGTH is (00_scope.md R9, 10_state.md R28). -/
abbrev Block := Vector Byte 16

end Sys2Proof
end

