-- ==== Sys2Proof/Syntax.lean ====
section
/-! DEFINITION. The syntax: the instructions (one constructor per row of spec/opcode_table.json), and the contexts the
rows are read in. -/

namespace Sys2Proof

/-- The Protocol State `st`: exactly one of three values (10_state.md R21).  The pattern 0b11 of the suggested
encoding cannot be written down (R22). -/
inductive Protocol where
  | idle
  | receivingKey
  | receivingPlaintext
deriving DecidableEq, Repr

/-- The five classes of received characters (30_encoding.md R71). -/
inductive CharClass where
  | cmdX
  | cmdK
  | cmdP
  | term
  | data
deriving DecidableEq, Repr

/-- Where a character is read: the three tables of spec/opcode_table.json (30_encoding.md section 7).
`step st room`: a character received in Protocol State `st`, `room` saying whether `ptr < BUFLEN`;
`hex`: a payload character inside `decode`; `tx`: a character of a response. -/
inductive Context where
  | step (st : Protocol) (room : Bool)
  | hex
  | tx
deriving DecidableEq, Repr

/-- The rows of spec/opcode_table.json.  A DATA row's operand is the character itself (30_encoding.md R70). -/
inductive Instr where
  -- table "step": a character received from the Transport
  | cmdX
  | cmdK
  | cmdP
  | termLfReceivingKey
  | termCrReceivingKey
  | termLfReceivingPlaintext
  | termCrReceivingPlaintext
  | termLfIdle
  | termCrIdle
  | dataReceivingKeyFit (c : Byte)
  | dataReceivingKeyFull (c : Byte)
  | dataReceivingPlaintextFit (c : Byte)
  | dataReceivingPlaintextFull (c : Byte)
  | dataIdle (c : Byte)
  -- table "HexVal": one payload character inside `decode`
  | hex0 | hex1 | hex2 | hex3 | hex4 | hex5 | hex6 | hex7 | hex8 | hex9
  | hexAUpper | hexBUpper | hexCUpper | hexDUpper | hexEUpper | hexFUpper
  | hexALower | hexBLower | hexCLower | hexDLower | hexELower | hexFLower
  /-- Any character that is not a hex digit; `c` is that character (log entry 24). -/
  | hexInvalid (c : Byte)
  -- table "tx": one character of a response
  | respLead
  | respHex0 | respHex1 | respHex2 | respHex3 | respHex4 | respHex5 | respHex6 | respHex7
  | respHex8 | respHex9 | respHexA | respHexB | respHexC | respHexD | respHexE | respHexF
  | respTerm
deriving DecidableEq, Repr

end Sys2Proof
end

