-- ==== Sys2Proof/Machine/Operands.lean ====
section
/-! DEFINITION. Characters and the Hex Codec: the ASCII codes (spec/30_encoding.md R72), the classes (R71), the hex
digit tables (R73, R74), and the two pure functions `decode` and `encode` (40_hex_codec.md R100 to R110). -/

namespace Sys2Proof.Machine

/-- `'\n'` (30_encoding.md R72; the numeric codes are general knowledge there, log entry 17). -/
def charLf : Byte := 0x0A#8
/-- `'\r'` (R72). -/
def charCr : Byte := 0x0D#8
/-- `'k'`: set key (R72). -/
def charK : Byte := 0x6B#8
/-- `'p'`: set plaintext and encrypt (R72). -/
def charP : Byte := 0x70#8
/-- `'r'`: the first character of a response (R72). -/
def charR : Byte := 0x72#8
/-- `'x'`: abort (R72). -/
def charX : Byte := 0x78#8

/-- `Class(c)`: the first test that holds decides; everything else is DATA (30_encoding.md R71). -/
def classify (c : Byte) : CharClass :=
  if c = charX then .cmdX
  else if c = charK then .cmdK
  else if c = charP then .cmdP
  else if c = charLf ∨ c = charCr then .term
  else .data

/-- `HexVal(c)`: '0' to '9', 'A' to 'F', 'a' to 'f'; `none` is `Invalid` (30_encoding.md R73). -/
def hexVal (c : Byte) : Option Nibble :=
  let n := c.toNat
  if 0x30 ≤ n ∧ n ≤ 0x39 then some (BitVec.ofNat 4 (n - 0x30))
  else if 0x41 ≤ n ∧ n ≤ 0x46 then some (BitVec.ofNat 4 (n - 0x41 + 10))
  else if 0x61 ≤ n ∧ n ≤ 0x66 then some (BitVec.ofNat 4 (n - 0x61 + 10))
  else none

/-- `HexChar(n)`: the upper-case digit of a nibble (30_encoding.md R74). -/
def hexChar (n : Nibble) : Byte :=
  if n.toNat ≤ 9 then BitVec.ofNat 8 (0x30 + n.toNat) else BitVec.ofNat 8 (0x41 + (n.toNat - 10))

/-- `{hn, ln}`: the byte of a high and a low nibble (40_hex_codec.md R102). -/
def joinNibbles (hn ln : Nibble) : Byte := hn ++ ln

/-- The high nibble of a byte, `v[7:4]` (00_scope.md section 6). -/
def highNibble (v : Byte) : Nibble := v.extractLsb' 4 4

/-- The low nibble of a byte, `v[3:0]` (00_scope.md section 6). -/
def lowNibble (v : Byte) : Nibble := v.extractLsb' 0 4

/-- The digit values of a payload paired into bytes, first of a pair high (40_hex_codec.md R102); `none` is
InvalidHexDigit (R104).  An unpaired last digit, which R105 says never arises, is `none` too (log entry 16). -/
def packDigits : List (Option Nibble) → Option (List Byte)
  | [] => some []
  | [_] => none
  | h :: l :: rest =>
    match h, l, packDigits rest with
    | some hn, some ln, some bytes => some (joinNibbles hn ln :: bytes)
    | _, _, _ => none

/-- `decode(ascii, length)`: `length / 2` bytes, or `none` for InvalidHexDigit; characters beyond `length` are not
looked at (40_hex_codec.md R101, R102, R104).  R101 gives no result where `ascii` has fewer than `length` characters;
DESIGN CHOICE: those there are decoded (log entry 27). -/
def hexDecode (ascii : List Byte) (length : Nat) : Option (List Byte) :=
  packDigits ((ascii.take length).map hexVal)

/-- The two characters of one byte, high nibble first (40_hex_codec.md R106). -/
def encodeByte (v : Byte) : List Byte := [hexChar (highNibble v), hexChar (lowNibble v)]

/-- `encode(bytes, length)`: exactly `2 × length` upper-case characters, no sentinel (40_hex_codec.md R106, R107).  R106
gives no result where `bytes` has fewer than `length` bytes; DESIGN CHOICE: those there are encoded (log entry 27). -/
def hexEncode (bytes : List Byte) (length : Nat) : List Byte :=
  (bytes.take length).flatMap encodeByte

/-- The upper-case form of a hex letter; every other character, of which R109 says nothing but for the hex
digits, as it is (40_hex_codec.md R109; log entry 27). -/
def upperCase (c : Byte) : Byte :=
  if 0x61 ≤ c.toNat ∧ c.toNat ≤ 0x66 then BitVec.ofNat 8 (c.toNat - 0x20) else c

/-- A Block from 16 decoded bytes, in order (20_memory.md R52).  DESIGN CHOICE: of a list of another length, which no step
makes a Block of, zeros fill it up or the surplus is left off (log entry 27). -/
def blockOfBytes (bytes : List Byte) : Block := Vector.ofFn fun i => bytes.getD i 0

end Sys2Proof.Machine
end

