-- ==== Sys2Proof/WellFormed.lean ====
section
/-! DEFINITION. Which instruction terms stand for a row of spec/opcode_table.json, and in which context a row applies
(spec/30_encoding.md sections 6 and 7). -/

namespace Sys2Proof

/-- An instruction is well formed when its operand is one its row can carry: a DATA row's character is of class DATA
(30_encoding.md R71), and HEX_INVALID's is no hex digit (R73). -/
def Instr.wellFormed : Instr → Bool
  | .dataReceivingKeyFit c | .dataReceivingKeyFull c | .dataReceivingPlaintextFit c
  | .dataReceivingPlaintextFull c | .dataIdle c => decide (Machine.classify c = .data)
  | .hexInvalid c => decide (Machine.hexVal c = none)
  | .cmdX | .cmdK | .cmdP
  | .termLfReceivingKey | .termCrReceivingKey | .termLfReceivingPlaintext | .termCrReceivingPlaintext
  | .termLfIdle | .termCrIdle
  | .hex0 | .hex1 | .hex2 | .hex3 | .hex4 | .hex5 | .hex6 | .hex7 | .hex8 | .hex9
  | .hexAUpper | .hexBUpper | .hexCUpper | .hexDUpper | .hexEUpper | .hexFUpper
  | .hexALower | .hexBLower | .hexCLower | .hexDLower | .hexELower | .hexFLower
  | .respLead
  | .respHex0 | .respHex1 | .respHex2 | .respHex3 | .respHex4 | .respHex5 | .respHex6 | .respHex7
  | .respHex8 | .respHex9 | .respHexA | .respHexB | .respHexC | .respHexD | .respHexE | .respHexF
  | .respTerm => true

/-- The columns "table", "state" and "guard" of a row: the contexts it applies in (30_encoding.md section 6). -/
def Instr.runsIn : Instr → Context → Bool
  | .cmdX, .step _ _ | .cmdK, .step _ _ | .cmdP, .step _ _ => true
  | .termLfReceivingKey, .step .receivingKey _ | .termCrReceivingKey, .step .receivingKey _ => true
  | .termLfReceivingPlaintext, .step .receivingPlaintext _
  | .termCrReceivingPlaintext, .step .receivingPlaintext _ => true
  | .termLfIdle, .step .idle _ | .termCrIdle, .step .idle _ => true
  | .dataReceivingKeyFit _, .step .receivingKey room => room
  | .dataReceivingKeyFull _, .step .receivingKey room => !room
  | .dataReceivingPlaintextFit _, .step .receivingPlaintext room => room
  | .dataReceivingPlaintextFull _, .step .receivingPlaintext room => !room
  | .dataIdle _, .step .idle _ => true
  | .hex0, .hex | .hex1, .hex | .hex2, .hex | .hex3, .hex | .hex4, .hex
  | .hex5, .hex | .hex6, .hex | .hex7, .hex | .hex8, .hex | .hex9, .hex => true
  | .hexAUpper, .hex | .hexBUpper, .hex | .hexCUpper, .hex
  | .hexDUpper, .hex | .hexEUpper, .hex | .hexFUpper, .hex => true
  | .hexALower, .hex | .hexBLower, .hex | .hexCLower, .hex
  | .hexDLower, .hex | .hexELower, .hex | .hexFLower, .hex => true
  | .hexInvalid _, .hex => true
  | .respLead, .tx | .respTerm, .tx => true
  | .respHex0, .tx | .respHex1, .tx | .respHex2, .tx | .respHex3, .tx
  | .respHex4, .tx | .respHex5, .tx | .respHex6, .tx | .respHex7, .tx => true
  | .respHex8, .tx | .respHex9, .tx | .respHexA, .tx | .respHexB, .tx
  | .respHexC, .tx | .respHexD, .tx | .respHexE, .tx | .respHexF, .tx => true
  | _, _ => false

end Sys2Proof
end

