-- ==== Sys2Proof/Decode.lean ====
section
/-! DEFINITION. The decoder, total on any bytes in any context, and the encoder (spec/30_encoding.md R70 to R74,
section 6 and 7; spec/opcode_table.json). -/

namespace Sys2Proof

/-- Why no instruction is read. -/
inductive DecodeError where
  /-- There is no character to read. -/
  | noCharacter
  /-- In a response, a character the block never transmits (30_encoding.md R76). -/
  | notTransmitted (c : Byte)
deriving DecidableEq, Repr

open Machine in
/-- The step decoder: the character's class, then `st`, then the capacity guard (41_protocol_fsm.md R120).
Every character has a row in every state (R135). -/
def decodeStep (st : Protocol) (room : Bool) (c : Byte) : Instr :=
  match classify c with
  | .cmdX => .cmdX
  | .cmdK => .cmdK
  | .cmdP => .cmdP
  | .term =>
    match st with
    | .receivingKey => if c = charLf then .termLfReceivingKey else .termCrReceivingKey
    | .receivingPlaintext => if c = charLf then .termLfReceivingPlaintext else .termCrReceivingPlaintext
    | .idle => if c = charLf then .termLfIdle else .termCrIdle
  | .data =>
    match st with
    | .receivingKey => if room then .dataReceivingKeyFit c else .dataReceivingKeyFull c
    | .receivingPlaintext => if room then .dataReceivingPlaintextFit c else .dataReceivingPlaintextFull c
    | .idle => .dataIdle c

/-- The HexVal table: a row for every character, the last one catching all that is no digit (30_encoding.md R73). -/
def decodeHex (c : Byte) : Instr :=
  match c.toNat with
  | 0x30 => .hex0 | 0x31 => .hex1 | 0x32 => .hex2 | 0x33 => .hex3 | 0x34 => .hex4
  | 0x35 => .hex5 | 0x36 => .hex6 | 0x37 => .hex7 | 0x38 => .hex8 | 0x39 => .hex9
  | 0x41 => .hexAUpper | 0x42 => .hexBUpper | 0x43 => .hexCUpper
  | 0x44 => .hexDUpper | 0x45 => .hexEUpper | 0x46 => .hexFUpper
  | 0x61 => .hexALower | 0x62 => .hexBLower | 0x63 => .hexCLower
  | 0x64 => .hexDLower | 0x65 => .hexELower | 0x66 => .hexFLower
  | _ => .hexInvalid c

/-- The transmit table: 'r', the sixteen upper-case digits, LF, and no other character (30_encoding.md R74, R76). -/
def decodeTx (c : Byte) : Except DecodeError Instr :=
  match c.toNat with
  | 0x72 => .ok .respLead
  | 0x30 => .ok .respHex0 | 0x31 => .ok .respHex1 | 0x32 => .ok .respHex2 | 0x33 => .ok .respHex3
  | 0x34 => .ok .respHex4 | 0x35 => .ok .respHex5 | 0x36 => .ok .respHex6 | 0x37 => .ok .respHex7
  | 0x38 => .ok .respHex8 | 0x39 => .ok .respHex9 | 0x41 => .ok .respHexA | 0x42 => .ok .respHexB
  | 0x43 => .ok .respHexC | 0x44 => .ok .respHexD | 0x45 => .ok .respHexE | 0x46 => .ok .respHexF
  | 0x0A => .ok .respTerm
  | _ => .error (.notTransmitted c)

/-- The decoder of one character in a context. -/
def decode (ctx : Context) (c : Byte) : Except DecodeError Instr :=
  match ctx with
  | .step st room => .ok (decodeStep st room c)
  | .hex => .ok (decodeHex c)
  | .tx => decodeTx c

/-- The decoder on bytes: one character is one instruction, whatever follows it (30_encoding.md R70). -/
def decodeBytes (ctx : Context) : List Byte → Except DecodeError (Instr × List Byte)
  | [] => .error .noCharacter
  | c :: rest =>
    match decode ctx c with
    | .ok i => .ok (i, rest)
    | .error e => .error e

open Machine in
/-- The character of an instruction (30_encoding.md R72; spec/opcode_table.json, column "match", or the operand of a
row whose mask is 0). -/
def encode : Instr → Byte
  | .cmdX => charX
  | .cmdK => charK
  | .cmdP => charP
  | .termLfReceivingKey | .termLfReceivingPlaintext | .termLfIdle => charLf
  | .termCrReceivingKey | .termCrReceivingPlaintext | .termCrIdle => charCr
  | .dataReceivingKeyFit c | .dataReceivingKeyFull c | .dataReceivingPlaintextFit c
  | .dataReceivingPlaintextFull c | .dataIdle c => c
  | .hex0 => 0x30#8 | .hex1 => 0x31#8 | .hex2 => 0x32#8 | .hex3 => 0x33#8 | .hex4 => 0x34#8
  | .hex5 => 0x35#8 | .hex6 => 0x36#8 | .hex7 => 0x37#8 | .hex8 => 0x38#8 | .hex9 => 0x39#8
  | .hexAUpper => 0x41#8 | .hexBUpper => 0x42#8 | .hexCUpper => 0x43#8
  | .hexDUpper => 0x44#8 | .hexEUpper => 0x45#8 | .hexFUpper => 0x46#8
  | .hexALower => 0x61#8 | .hexBLower => 0x62#8 | .hexCLower => 0x63#8
  | .hexDLower => 0x64#8 | .hexELower => 0x65#8 | .hexFLower => 0x66#8
  | .hexInvalid c => c
  | .respLead => charR
  | .respHex0 => 0x30#8 | .respHex1 => 0x31#8 | .respHex2 => 0x32#8 | .respHex3 => 0x33#8
  | .respHex4 => 0x34#8 | .respHex5 => 0x35#8 | .respHex6 => 0x36#8 | .respHex7 => 0x37#8
  | .respHex8 => 0x38#8 | .respHex9 => 0x39#8 | .respHexA => 0x41#8 | .respHexB => 0x42#8
  | .respHexC => 0x43#8 | .respHexD => 0x44#8 | .respHexE => 0x45#8 | .respHexF => 0x46#8
  | .respTerm => charLf

/-- The context `step` reads its first character in after reset: st = Idle, ptr = 0 < BUFLEN (10_state.md R35). -/
def resetContext : Context := .step .idle true

/-- The instruction the decoder reads from a table word, in the context after reset (log entry 14). -/
def decodeTableWord (nbits w : Nat) : Option Instr :=
  match decodeBytes resetContext [BitVec.ofNat 8 (w % 2 ^ nbits)] with
  | .ok (i, _) => some i
  | .error _ => none

end Sys2Proof
end

