-- ==== Sys2Proof/Config.lean ====
section
/-! DEFINITION. The build-time parameters (spec/00_scope.md R7 to R13) and the free values.
What is computed from the parameters stands in Sys2Proof/Machine/Params.lean. -/

namespace Sys2Proof

/-- The clock-jitter feature flag, three values (00_scope.md R11). -/
inductive Jitter where
  | off
  | fullRange
  | centered
deriving DecidableEq, Repr, Inhabited

/-- The numbers that go with the jitter option (00_scope.md R11): the two windows' parameters, the nominal
calibration value and the width of the calibration value in bits.  No value of any of them is in the spec (R11, D24). -/
structure Calibration where
  min        : Int
  max        : Int
  center     : Int
  vary       : Int
  nominalCal : Nat
  calWidth   : Nat
deriving DecidableEq, Repr, Inhabited

/-- One build of the block: every parameter fixed at build time (00_scope.md section 3).  It is carried in State as
data that no step changes, so that every statement over all states speaks of every build (log entry 1). -/
structure Config where
  /-- KEY_LENGTH, the cipher key size in bytes (R7). -/
  keyLength  : Nat
  /-- DEFAULT_KEY, the compiled-in key material (R10). -/
  defaultKey : List Byte
  /-- JITTER (R11). -/
  jitter     : Jitter
  /-- MIN, MAX, CENTER, VARY, NOMINAL_CAL, CAL_WIDTH (R11). -/
  cal        : Calibration
deriving DecidableEq, Repr

/-- ENC, the Cryptographic Engine's block transform: an uninterpreted total function of the key and the input block
(00_scope.md R12, 43_interfaces.md R184; log entry 4). -/
opaque Config.enc : List Byte → Block → Block

/-- FREE VALUE: what the random source answers at the n-th draw for which `State.rnd` lists no value
(42_trigger_controller.md R165; log entry 8). -/
opaque Config.freeDraw : Nat → Nat

/-- FREE VALUE: the bytes of DEFAULT_KEY in the build of `State.reset` (00_scope.md R10; log entry 2). -/
opaque Config.buildKeyByte : Nat → Byte

/-- FREE VALUE: the jitter numbers of the build of `State.reset` (00_scope.md R11; log entry 2). -/
opaque Config.buildCalibration : Calibration

/-- The build `State.reset` stands for.  DESIGN CHOICE: KEY_LENGTH 16, the spec's worked example, and JITTER Off
(log entry 1); DEFAULT_KEY and the calibration numbers stay free (log entry 2). -/
def Config.build : Config where
  keyLength  := 16
  defaultKey := (List.range 16).map Config.buildKeyByte
  jitter     := .off
  cal        := Config.buildCalibration

end Sys2Proof
end

