-- ==== Sys2Proof/Machine/Params.lean ====
section
/-! DEFINITION. What is computed from the build-time parameters: sizes, the calibration window, which builds are
legal, and the draw (spec/00_scope.md R8, R13; 42_trigger_controller.md R165). -/

namespace Sys2Proof.Machine

/-- BUFLEN = 4 × KEY_LENGTH (00_scope.md R8). -/
def bufLen (cfg : Config) : Nat := 4 * cfg.keyLength

/-- The number of hex characters of a key payload, 2 × KEY_LENGTH (30_encoding.md R75). -/
def keyDigits (cfg : Config) : Nat := 2 * cfg.keyLength

/-- The number of hex characters of a plaintext payload: 32, independent of KEY_LENGTH (00_scope.md R9). -/
def blockDigits : Nat := 32

/-- The width of the register `ptr`, ceil(log2(BUFLEN + 1)) bits for a BUFLEN of at least 1 (10_state.md R23). -/
def ptrWidth (cfg : Config) : Nat := Nat.log2 (bufLen cfg) + 1

/-- The bit patterns this spec suggests for `st` (10_state.md R22; visible on no port). -/
def protocolBits : Protocol → BitVec 2
  | .idle => 0b00#2
  | .receivingKey => 0b01#2
  | .receivingPlaintext => 0b10#2

/-- CAL_LO of the jitter window (42_trigger_controller.md R165; `Int` division by 2 rounds down).  With
JITTER Off there is no window and nothing draws; DESIGN CHOICE: 0 (log entry 8). -/
def calLo (cfg : Config) : Int :=
  match cfg.jitter with
  | .off => 0
  | .fullRange => cfg.cal.min
  | .centered => cfg.cal.center - cfg.cal.vary / 2

/-- CAL_HI of the jitter window (42_trigger_controller.md R165).  DESIGN CHOICE: 0 with JITTER Off (log entry 8). -/
def calHi (cfg : Config) : Int :=
  match cfg.jitter with
  | .off => 0
  | .fullRange => cfg.cal.max
  | .centered => cfg.cal.center + cfg.cal.vary / 2

/-- The jitter numbers are usable: the window is not empty and lies inside the calibration value's range
(00_scope.md R13 (d)), and NOMINAL_CAL, itself a calibration value, fits CAL_WIDTH bits (DEDUCED, log entry 3). -/
def windowLegal (cfg : Config) : Bool :=
  decide (0 ≤ calLo cfg) && decide (calLo cfg ≤ calHi cfg) && decide (calHi cfg ≤ 2 ^ cfg.cal.calWidth - 1)
    && decide (cfg.cal.nominalCal < 2 ^ cfg.cal.calWidth)

/-- A legal build: KEY_LENGTH at least 1 (00_scope.md R13 (a)), DEFAULT_KEY of that length (R10), and, when
JITTER ≠ Off, usable jitter numbers (R13 (d)). -/
def legal (cfg : Config) : Bool :=
  decide (1 ≤ cfg.keyLength) && decide (cfg.defaultKey.length = cfg.keyLength)
    && (decide (cfg.jitter = .off) || windowLegal cfg)

/-- The calibration value drawn when the random source presents `raw`: `raw` itself where it lies in the closed window
[CAL_LO, CAL_HI], otherwise `raw` folded into it (42_trigger_controller.md R165; log entry 8, which also speaks of an empty window). -/
def drawFrom (cfg : Config) (raw : Nat) : Nat :=
  if calLo cfg ≤ raw ∧ (raw : Int) ≤ calHi cfg then raw
  else (calLo cfg + (raw : Int) % (calHi cfg - calLo cfg + 1)).toNat

end Sys2Proof.Machine
end

