-- ==== Sys2Proof/Machine/Action.lean ====
section
/-! DEFINITION. The actions a step is made of, in the order the rules write them, and the events an outside observer
sees (spec/00_scope.md R16). -/

namespace Sys2Proof.Machine

/-- The three discard conditions (60_exceptions.md R200).  A label has no code and is recorded nowhere in the block
(R205); it stands in the trace as a diagnostic (log entry 23). -/
inductive Condition where
  | overflow
  | invalidHexDigit
  | badLength
deriving DecidableEq, Repr

/-- The three fixed delays, of no stated length (42_trigger_controller.md R170). -/
inductive DelayTag where
  | settlePre
  | settlePost
  | restore
deriving DecidableEq, Repr

/-- The event alphabet (00_scope.md R16). -/
inductive Event where
  | rx (c : Byte)
  | tx (c : Byte)
  | engInit
  | engSetKey (k : List Byte)
  | engEncrypt (b b' : Block)
  | trig (high : Bool)
  | cal (v : Nat)
  | delay (d : DelayTag)
deriving DecidableEq, Repr

/-- What a step does, one write, call or event each; `State.apply` gives the effects. -/
inductive Action where
  /-- `readChar` returns `c` (43_interfaces.md R180). -/
  | rx (c : Byte)
  /-- `ptr <- 0`: every element of the Capture Buffer becomes undefined (10_state.md R24, R26). -/
  | rewind
  /-- `st <- st`. -/
  | goto (st : Protocol)
  /-- `buf[ptr] <- c; ptr <- ptr + 1` (41_protocol_fsm.md R125, R128). -/
  | append (c : Byte)
  /-- `decode` is called (40_hex_codec.md R102). -/
  | decodeCall
  /-- One digit of the decode in progress: the value a HexVal row gives (30_encoding.md R73). -/
  | digit (v : Option Nibble)
  /-- `decode` returns; its locals are gone (40_hex_codec.md R100). -/
  | decodeReturn
  /-- `encode` is called and returns (40_hex_codec.md R106). -/
  | encodeCall
  /-- A condition is raised (60_exceptions.md R200). -/
  | raise (cond : Condition)
  /-- `key <- k`, all bytes (10_state.md R27). -/
  | writeKey (k : List Byte)
  /-- `block <- b`, all bytes (10_state.md R28). -/
  | writeBlock (b : Block)
  /-- `initialize()` (43_interfaces.md R184). -/
  | engInit
  /-- `setKey(k)`: `ek <- k` (43_interfaces.md R184). -/
  | engSetKey (k : List Byte)
  /-- `encryptBlock(b)` returns `b'`, in place (20_memory.md R61, 42_trigger_controller.md R163). -/
  | encrypt (b b' : Block)
  /-- `trig <- level`, driven on the line (42_trigger_controller.md R162). -/
  | drive (high : Bool)
  /-- The random source is sampled; the draw is `v` (42_trigger_controller.md R165). -/
  | sample (v : Nat)
  /-- `cal <- v`, written by the block (42_trigger_controller.md R164, R166). -/
  | writeCal (v : Nat)
  /-- A fixed delay elapses (42_trigger_controller.md R170). -/
  | delay (d : DelayTag)
  /-- `writeChar(c)` is accepted (43_interfaces.md R181). -/
  | tx (c : Byte)
  /-- Reset abandons whatever was in progress, and the request is served (70_reset_and_hazards.md R231). -/
  | abandon
  /-- Reset takes the trigger line low, with no Trig event (70_reset_and_hazards.md R230). -/
  | trigLow
  /-- The platform sets the calibration value at reset, with no Cal event (70_reset_and_hazards.md R230, R232). -/
  | platformCal (v : Nat)
deriving DecidableEq, Repr

/-- The event of an action, if an outside observer sees it (00_scope.md R16). -/
def eventOf : Action → Option Event
  | .rx c => some (.rx c)
  | .tx c => some (.tx c)
  | .engInit => some .engInit
  | .engSetKey k => some (.engSetKey k)
  | .encrypt b b' => some (.engEncrypt b b')
  | .drive high => some (.trig high)
  | .writeCal v => some (.cal v)
  | .delay d => some (.delay d)
  | .rewind | .goto _ | .append _ | .decodeCall | .digit _ | .decodeReturn | .encodeCall | .raise _
  | .writeKey _ | .writeBlock _ | .sample _ | .abandon | .trigLow | .platformCal _ => none

/-- The reset sequence (70_reset_and_hazards.md R230); `cal` is nominal by the platform's doing (R232). -/
def resetActions (cfg : Config) : List Action :=
  [.abandon, .platformCal cfg.cal.nominalCal, .trigLow, .goto .idle, .rewind, .writeKey cfg.defaultKey,
   .engInit, .engSetKey cfg.defaultKey]

/-- The ports of the block (43_interfaces.md R188). -/
inductive Port where
  | rst | rx | tx | trig | engInit | engSetKey | engEncrypt | cal | rnd
deriving DecidableEq, Repr

/-- Directions as seen from the block (43_interfaces.md R188). -/
inductive Direction where
  | input | output | both
deriving DecidableEq, Repr

/-- Direction of each port (43_interfaces.md R188). -/
def portDirection : Port → Direction
  | .rst | .rx | .rnd => .input
  | .tx | .trig | .engInit | .engSetKey | .cal => .output
  | .engEncrypt => .both

/-- Data bits of each port, handshakes left out; for `eng.encrypt` the bits of each direction, for `rnd` the least
width (43_interfaces.md R188). -/
def portWidth (cfg : Config) : Port → Nat
  | .rst | .trig => 1
  | .rx | .tx => 8
  | .engInit => 0
  | .engSetKey => 8 * cfg.keyLength
  | .engEncrypt => 128
  | .cal | .rnd => cfg.cal.calWidth

/-- The port an event is a transfer on; a delay is on none (43_interfaces.md R188, 00_scope.md R16). -/
def eventPort : Event → Option Port
  | .rx _ => some .rx
  | .tx _ => some .tx
  | .engInit => some .engInit
  | .engSetKey _ => some .engSetKey
  | .engEncrypt _ _ => some .engEncrypt
  | .trig _ => some .trig
  | .cal _ => some .cal
  | .delay _ => none

end Sys2Proof.Machine
end

