-- ==== Sys2Proof/Machine/State.lean ====
section
/-! DEFINITION. The state of the block (spec/10_state.md R20, R30, R31), the inputs of its step (00_scope.md R17), the
record of what it did, and the state after reset (R35). -/

namespace Sys2Proof.Machine

/-- The three byte stores (20_memory.md R50). -/
inductive Space where
  | buf
  | key
  | block
deriving DecidableEq, Repr

/-- Why the machine stops.  No step takes either fault (20_memory.md R51, R62); both are safe. -/
inductive Fault where
  /-- An index past the store's end, raised by `State.readByte`, `State.memRead`, `State.memWrite` and by an append to a
  full Capture Buffer (20_memory.md R51: such an access is not defined; log entries 15, 26).  Safe. -/
  | outOfStore (sp : Space) (index : Nat)
  /-- A read of a Capture Buffer element at or past the cursor, raised by `State.readByte` and `State.memRead`
  (10_state.md R26;
  93_implementation_defined.md U2).  Safe. -/
  | undefinedElement (index : Nat)
deriving DecidableEq, Repr

/-- Why an instruction or a step has no meaning. -/
inductive Refusal where
  /-- An instruction without a meaning; raised by no arm of `exec` now.  Safe. -/
  | notModelled (mnemonic : String)
  /-- The build's parameters break 00_scope.md R13; raised by `step`.  Safe. -/
  | illegalConfiguration
deriving DecidableEq, Repr

structure State where
  -- the build (00_scope.md R7 to R13); no step changes it
  cfg     : Config
  -- the block's own state (10_state.md R20)
  /-- The Protocol State (R21). -/
  st      : Protocol
  /-- The Capture Buffer's defined elements, buf[0 .. ptr-1]; the cursor `ptr` is its length (R23, R25, R26; log entry 5). -/
  buf     : List Byte
  /-- The Key, working copy (R27). -/
  key     : List Byte
  /-- The Plaintext/Ciphertext Block (R28). -/
  block   : Block
  /-- The trigger level, `true` high (R29). -/
  trig    : Bool
  -- external state the block writes
  /-- The Engine's key (R30). -/
  ek      : List Byte
  /-- The clock-calibration value (R31). -/
  cal     : Nat
  -- inputs of the step (00_scope.md R17, 43_interfaces.md R188)
  /-- Characters the Transport has still to deliver, first to come first (R180). -/
  rx      : List Byte
  /-- Values the random source will present, first to come first (R187; log entry 8). -/
  rnd     : List Nat
  /-- A reset request: `some k` lets k actions of the coming step complete (R231; log entry 11). -/
  rst     : Option Nat
  -- the model's own fields
  /-- Draws made so far, the argument of the free draw (log entry 8). -/
  draws   : Nat
  /-- HexVal results of the decode in progress, empty between steps (40_hex_codec.md R102; log entry 13). -/
  nibbles : List (Option Nibble)
  /-- Everything done since reset began, oldest first (log entry 9). -/
  trace   : List Action
deriving DecidableEq, Repr

/-- The cursor `ptr` (10_state.md R23). -/
abbrev State.ptr (s : State) : Nat := s.buf.length

/-- The state right after reset of a build (10_state.md R35, 70_reset_and_hazards.md R230).  DESIGN CHOICE: block 0
(log entry 6), the inputs and the model's own fields empty (log entry 7). -/
def State.resetOf (cfg : Config) : State where
  cfg     := cfg
  st      := .idle
  buf     := []
  key     := cfg.defaultKey
  block   := Vector.replicate 16 0#8
  trig    := false
  ek      := cfg.defaultKey
  cal     := cfg.cal.nominalCal
  rx      := []
  rnd     := []
  rst     := none
  draws   := 0
  nibbles := []
  trace   := resetActions cfg

/-- The state right after reset of the build of log entry 1. -/
def State.reset : State := State.resetOf Config.build

end Sys2Proof.Machine
end

