-- ==== Sys2Proof/Machine/Flags.lean ====
section
/-! DEFINITION. The one-bit conditions.  The block has no flags and no condition codes (spec/10_state.md R32); what a
step decides on are the capacity guard, the length tests and the jitter option, and its one status bit is `trig`. -/

namespace Sys2Proof.Machine

/-- The capacity guard `ptr < BUFLEN` (41_protocol_fsm.md R120). -/
def State.hasRoom (s : State) : Bool := decide (s.ptr < bufLen s.cfg)

/-- The key payload has its required length, `ptr = 2 × KEY_LENGTH` (41_protocol_fsm.md R132). -/
def State.keyLengthOk (s : State) : Bool := decide (s.ptr = keyDigits s.cfg)

/-- The plaintext payload has its required length, `ptr = 32` (41_protocol_fsm.md R133). -/
def State.blockLengthOk (s : State) : Bool := decide (s.ptr = blockDigits)

/-- `JITTER ≠ Off` (42_trigger_controller.md R161). -/
def State.jitterOn (s : State) : Bool := decide (s.cfg.jitter ≠ .off)

end Sys2Proof.Machine
end

