-- ==== Sys2Proof/Machine/Ops.lean ====
section
/-! DEFINITION. The named operations over the state: performing actions, reading the stores, the discard (what an
exception is here), reset, and the Transport's two primitives. -/

namespace Sys2Proof.Machine

/-- The effect of an action on the state, its record in the trace left out. -/
def State.apply (s : State) : Action → State
  | .rx _ => { s with rx := s.rx.tail }
  | .rewind => { s with buf := [] }
  | .goto st => { s with st := st }
  | .append c => { s with buf := s.buf ++ [c] }
  | .decodeCall => { s with nibbles := [] }
  | .digit v => { s with nibbles := s.nibbles ++ [v] }
  | .decodeReturn => { s with nibbles := [] }
  | .encodeCall => s
  | .raise _ => s
  | .writeKey k => { s with key := k }
  | .writeBlock b => { s with block := b }
  | .engInit => s
  | .engSetKey k => { s with ek := k }
  | .encrypt _ b' => { s with block := b' }
  | .drive high => { s with trig := high }
  | .sample _ => { s with rnd := s.rnd.tail, draws := s.draws + 1 }
  | .writeCal v => { s with cal := v }
  | .delay _ => s
  | .tx _ => s
  | .abandon => { s with nibbles := [], rst := none }
  | .trigLow => { s with trig := false }
  | .platformCal v => { s with cal := v }

/-- Perform one action: its effect, then its record. -/
def State.act (s : State) (a : Action) : State := { s.apply a with trace := s.trace ++ [a] }

/-- Perform actions in the order written (00_scope.md section 6). -/
def State.perform (s : State) : List Action → State
  | [] => s
  | a :: as => (s.act a).perform as

/-- The run's events so far, in order (00_scope.md R16). -/
def State.events (s : State) : List Event := s.trace.filterMap eventOf

/-- The size of a store in bytes: BUFLEN, KEY_LENGTH, 16 (20_memory.md R50). -/
def State.size (s : State) : Space → Nat
  | .buf => bufLen s.cfg
  | .key => s.cfg.keyLength
  | .block => 16

/-- The elements of a store that have a value, lowest index first; of BUF those below the cursor (10_state.md R26). -/
def State.bytes (s : State) : Space → List Byte
  | .buf => s.buf
  | .key => s.key
  | .block => s.block.toList

/-- One byte of a store (20_memory.md R50, R51).  An element of BUF at or past the cursor is undefined (10_state.md
R26), an index past a store's end does not exist. -/
def State.readByte (s : State) (sp : Space) (i : Nat) : Except Fault Byte :=
  match (s.bytes sp)[i]? with
  | some v => .ok v
  | none => if i < s.size sp then .error (.undefinedElement i) else .error (.outOfStore sp i)

/-- `space[addr], …, space[addr + n − 1]`, lowest index first. -/
def State.readRun (s : State) (sp : Space) (addr : Nat) : Nat → Except Fault (List Byte)
  | 0 => .ok []
  | n + 1 =>
    match s.readByte sp addr with
    | .error f => .error f
    | .ok v =>
      match s.readRun sp (addr + 1) n with
      | .error f => .error f
      | .ok vs => .ok (v :: vs)

/-- The fault of an access past a store's end, at the first index that does not exist. -/
def State.beyond (s : State) (sp : Space) (addr : Nat) : Fault := .outOfStore sp (max addr (s.size sp))

/-- `MemRead(space, addr, n)` (20_memory.md R51).  It is not defined when `addr + n` exceeds the store's size; DESIGN
CHOICE: it faults then, for `n = 0` too (log entry 26). -/
def State.memRead (s : State) (sp : Space) (addr n : Nat) : Except Fault (List Byte) :=
  if addr + n ≤ s.size sp then s.readRun sp addr n else .error (s.beyond sp addr)

/-- `v[0]` to `store[addr]`, `v[1]` to `store[addr + 1]`, …; an element the list does not hold stays without a value. -/
def overwrite (store : List Byte) (addr : Nat) : List Byte → List Byte
  | [] => store
  | c :: v => overwrite (store.set addr c) (addr + 1) v

/-- A store's elements that have a value, replaced. -/
def State.withBytes (s : State) (sp : Space) (l : List Byte) : State :=
  match sp with
  | .buf => { s with buf := l }
  | .key => { s with key := l }
  | .block => { s with block := blockOfBytes l }

/-- `MemWrite(space, addr, n, v)` (20_memory.md R51).  It does not move the cursor, so an element of BUF at or past it has
no defined value afterwards either (10_state.md R26).  Not defined when `addr + n` exceeds the store's size; DESIGN
CHOICE: it faults then and writes nothing, for `n = 0` too (log entry 26). -/
def State.memWrite (s : State) (sp : Space) (addr n : Nat) (v : Vector Byte n) : Except Fault State :=
  if addr + n ≤ s.size sp then .ok (s.withBytes sp (overwrite (s.bytes sp) addr v.toList))
  else .error (s.beyond sp addr)

/-- The canonical form of the stores: BUF lists its defined elements only, at most BUFLEN of them (10_state.md R23),
and KEY has KEY_LENGTH bytes (R27); BLOCK has 16 by its type. -/
def Memory.wf (s : State) : Bool :=
  decide (s.buf.length ≤ bufLen s.cfg) && decide (s.key.length = s.cfg.keyLength)

/-- `raise <Condition>`, taking what stands for an exception here: the discard `ptr <- 0; st <- Idle` and nothing else
(60_exceptions.md R204).  It saves nothing and there is no return from it (R208). -/
def State.discard (s : State) (cond : Condition) : State :=
  s.perform [.raise cond, .rewind, .goto .idle]

/-- Append a character and stay in the receiving state `st` (41_protocol_fsm.md R125, R128).  A Capture Buffer without
room has no element to write (20_memory.md R51; log entry 15). -/
def State.appendChar (s : State) (st : Protocol) (c : Byte) : Host.Outcome State Fault Refusal :=
  if s.hasRoom then .next (s.perform [.append c, .goto st]) else .fault (.outOfStore .buf s.ptr)

/-- Run the HexVal row of every payload character, in order (40_hex_codec.md R102, on `buf[0 .. ptr-1]`). -/
def State.decodePayload (s : State) : State :=
  s.perform (.decodeCall :: s.buf.map fun c => .digit (hexVal c))

/-- `writeChar(c)` (43_interfaces.md R181). -/
def State.writeChar (s : State) (c : Byte) : State := s.act (.tx c)

/-- Transmit one hex digit of a response (30_encoding.md R74). -/
def State.sendNibble (s : State) (n : Nibble) : State := s.writeChar (hexChar n)

/-- Deliver a digit's value to the decode in progress (30_encoding.md R73). -/
def State.latchDigit (s : State) (v : Option Nibble) : State := s.act (.digit v)

/-- `EmitResponse(out)`: 'r', the characters of `out`, LF (41_protocol_fsm.md R134, where `out` has 32).  DESIGN CHOICE: an
`out` of another length, which no step emits, is sent as it is (log entry 27). -/
def State.emitResponse (s : State) (out : List Byte) : State :=
  ((s.writeChar charR).perform (out.map .tx)).writeChar charLf

/-- Reset of a running block (70_reset_and_hazards.md R230): `block` is not written, the Transport's and the random
source's pending values stay theirs (log entry 12).  DESIGN CHOICE: the sequence runs whole, no second request lands inside it
(log entry 25). -/
def State.resetNow (s : State) : State := s.perform (resetActions s.cfg)

/-- The state a reset finds that lets `k` of the step's actions complete: `s` is the state before the step, `t` the
state the whole step would leave (70_reset_and_hazards.md R231; log entry 11). -/
def State.cutAt (s t : State) (k : Nat) : State :=
  s.perform ((t.trace.drop s.trace.length).take k)

/-- Place a character where the next `readChar` takes it, with no reset request in the way (log entry 14). -/
def State.deliver (s : State) (c : Byte) : State := { s with rx := c :: s.rx, rst := none }

end Sys2Proof.Machine
end

