-- ==== Sys2Proof/Machine/Command.lean ====
section
/-! DEFINITION. The command characters, recognised in every state (spec/41_protocol_fsm.md section 2). -/

namespace Sys2Proof.Machine

/-- CMD_X, abort (41_protocol_fsm.md R121). -/
def execCmdX (s : State) : Host.Outcome State Fault Refusal :=
  .next (s.perform [.rewind, .goto .idle])

/-- CMD_K, start a key command (41_protocol_fsm.md R122). -/
def execCmdK (s : State) : Host.Outcome State Fault Refusal :=
  .next (s.perform [.rewind, .goto .receivingKey])

/-- CMD_P, start a plaintext command (41_protocol_fsm.md R123). -/
def execCmdP (s : State) : Host.Outcome State Fault Refusal :=
  .next (s.perform [.rewind, .goto .receivingPlaintext])

end Sys2Proof.Machine
end

