-- ==== Sys2Proof/Machine/Data.lean ====
section
/-! DEFINITION. The DATA characters (spec/41_protocol_fsm.md R125, R126, R128, R129, R131). -/

namespace Sys2Proof.Machine

/-- DATA.ReceivingKey.fit: append (41_protocol_fsm.md R125). -/
def execDataReceivingKeyFit (c : Byte) (s : State) : Host.Outcome State Fault Refusal :=
  s.appendChar .receivingKey c

/-- DATA.ReceivingKey.full: overflow, the character dropped (41_protocol_fsm.md R126; 90_conflicts.md C1). -/
def execDataReceivingKeyFull (_c : Byte) (s : State) : Host.Outcome State Fault Refusal :=
  .next (s.discard .overflow)

/-- DATA.ReceivingPlaintext.fit: append (41_protocol_fsm.md R128). -/
def execDataReceivingPlaintextFit (c : Byte) (s : State) : Host.Outcome State Fault Refusal :=
  s.appendChar .receivingPlaintext c

/-- DATA.ReceivingPlaintext.full: overflow, the character dropped (41_protocol_fsm.md R129). -/
def execDataReceivingPlaintextFull (_c : Byte) (s : State) : Host.Outcome State Fault Refusal :=
  .next (s.discard .overflow)

/-- DATA.Idle: ignored, nothing stored (41_protocol_fsm.md R131). -/
def execDataIdle (_c : Byte) (s : State) : Host.Outcome State Fault Refusal :=
  .next (s.perform [.goto .idle])

end Sys2Proof.Machine
end

