-- ==== Sys2Proof/Machine/HexDigit.lean ====
section
/-! DEFINITION. The HexVal rows (spec/30_encoding.md R73): each gives its character's value to the decode in progress.
A completion runs one of them per payload character (40_hex_codec.md R102; log entry 13). -/

namespace Sys2Proof.Machine

/-- HEX_0: '0' is 0 (30_encoding.md R73). -/
def execHex0 (s : State) : Host.Outcome State Fault Refusal := .next (s.latchDigit (some 0#4))

/-- HEX_1: '1' is 1 (30_encoding.md R73). -/
def execHex1 (s : State) : Host.Outcome State Fault Refusal := .next (s.latchDigit (some 1#4))

/-- HEX_2: '2' is 2 (30_encoding.md R73). -/
def execHex2 (s : State) : Host.Outcome State Fault Refusal := .next (s.latchDigit (some 2#4))

/-- HEX_3: '3' is 3 (30_encoding.md R73). -/
def execHex3 (s : State) : Host.Outcome State Fault Refusal := .next (s.latchDigit (some 3#4))

/-- HEX_4: '4' is 4 (30_encoding.md R73). -/
def execHex4 (s : State) : Host.Outcome State Fault Refusal := .next (s.latchDigit (some 4#4))

/-- HEX_5: '5' is 5 (30_encoding.md R73). -/
def execHex5 (s : State) : Host.Outcome State Fault Refusal := .next (s.latchDigit (some 5#4))

/-- HEX_6: '6' is 6 (30_encoding.md R73). -/
def execHex6 (s : State) : Host.Outcome State Fault Refusal := .next (s.latchDigit (some 6#4))

/-- HEX_7: '7' is 7 (30_encoding.md R73). -/
def execHex7 (s : State) : Host.Outcome State Fault Refusal := .next (s.latchDigit (some 7#4))

/-- HEX_8: '8' is 8 (30_encoding.md R73). -/
def execHex8 (s : State) : Host.Outcome State Fault Refusal := .next (s.latchDigit (some 8#4))

/-- HEX_9: '9' is 9 (30_encoding.md R73). -/
def execHex9 (s : State) : Host.Outcome State Fault Refusal := .next (s.latchDigit (some 9#4))

/-- HEX_A_UPPER: 'A' is 10 (30_encoding.md R73). -/
def execHexAUpper (s : State) : Host.Outcome State Fault Refusal := .next (s.latchDigit (some 10#4))

/-- HEX_B_UPPER: 'B' is 11 (30_encoding.md R73). -/
def execHexBUpper (s : State) : Host.Outcome State Fault Refusal := .next (s.latchDigit (some 11#4))

/-- HEX_C_UPPER: 'C' is 12 (30_encoding.md R73). -/
def execHexCUpper (s : State) : Host.Outcome State Fault Refusal := .next (s.latchDigit (some 12#4))

/-- HEX_D_UPPER: 'D' is 13 (30_encoding.md R73). -/
def execHexDUpper (s : State) : Host.Outcome State Fault Refusal := .next (s.latchDigit (some 13#4))

/-- HEX_E_UPPER: 'E' is 14 (30_encoding.md R73). -/
def execHexEUpper (s : State) : Host.Outcome State Fault Refusal := .next (s.latchDigit (some 14#4))

/-- HEX_F_UPPER: 'F' is 15 (30_encoding.md R73). -/
def execHexFUpper (s : State) : Host.Outcome State Fault Refusal := .next (s.latchDigit (some 15#4))

/-- HEX_a_LOWER: 'a' is 10 (30_encoding.md R73). -/
def execHexALower (s : State) : Host.Outcome State Fault Refusal := .next (s.latchDigit (some 10#4))

/-- HEX_b_LOWER: 'b' is 11 (30_encoding.md R73). -/
def execHexBLower (s : State) : Host.Outcome State Fault Refusal := .next (s.latchDigit (some 11#4))

/-- HEX_c_LOWER: 'c' is 12 (30_encoding.md R73). -/
def execHexCLower (s : State) : Host.Outcome State Fault Refusal := .next (s.latchDigit (some 12#4))

/-- HEX_d_LOWER: 'd' is 13 (30_encoding.md R73). -/
def execHexDLower (s : State) : Host.Outcome State Fault Refusal := .next (s.latchDigit (some 13#4))

/-- HEX_e_LOWER: 'e' is 14 (30_encoding.md R73). -/
def execHexELower (s : State) : Host.Outcome State Fault Refusal := .next (s.latchDigit (some 14#4))

/-- HEX_f_LOWER: 'f' is 15 (30_encoding.md R73). -/
def execHexFLower (s : State) : Host.Outcome State Fault Refusal := .next (s.latchDigit (some 15#4))

/-- HEX_INVALID: no hex digit, the value is Invalid (30_encoding.md R73, 40_hex_codec.md R104). -/
def execHexInvalid (_c : Byte) (s : State) : Host.Outcome State Fault Refusal := .next (s.latchDigit none)

end Sys2Proof.Machine
end

