-- ==== Sys2Proof/Machine/Response.lean ====
section
/-! DEFINITION. The transmit rows (spec/30_encoding.md R74, R76; 41_protocol_fsm.md R134): each transmits its character.
`EmitResponse` is made of them (log entry 13). -/

namespace Sys2Proof.Machine

/-- RESP_LEAD: 'r', character 0 of a response (41_protocol_fsm.md R134). -/
def execRespLead (s : State) : Host.Outcome State Fault Refusal := .next (s.writeChar charR)

/-- RESP_HEX_0: the digit of nibble 0 (30_encoding.md R74). -/
def execRespHex0 (s : State) : Host.Outcome State Fault Refusal := .next (s.sendNibble 0#4)

/-- RESP_HEX_1: the digit of nibble 1 (30_encoding.md R74). -/
def execRespHex1 (s : State) : Host.Outcome State Fault Refusal := .next (s.sendNibble 1#4)

/-- RESP_HEX_2: the digit of nibble 2 (30_encoding.md R74). -/
def execRespHex2 (s : State) : Host.Outcome State Fault Refusal := .next (s.sendNibble 2#4)

/-- RESP_HEX_3: the digit of nibble 3 (30_encoding.md R74). -/
def execRespHex3 (s : State) : Host.Outcome State Fault Refusal := .next (s.sendNibble 3#4)

/-- RESP_HEX_4: the digit of nibble 4 (30_encoding.md R74). -/
def execRespHex4 (s : State) : Host.Outcome State Fault Refusal := .next (s.sendNibble 4#4)

/-- RESP_HEX_5: the digit of nibble 5 (30_encoding.md R74). -/
def execRespHex5 (s : State) : Host.Outcome State Fault Refusal := .next (s.sendNibble 5#4)

/-- RESP_HEX_6: the digit of nibble 6 (30_encoding.md R74). -/
def execRespHex6 (s : State) : Host.Outcome State Fault Refusal := .next (s.sendNibble 6#4)

/-- RESP_HEX_7: the digit of nibble 7 (30_encoding.md R74). -/
def execRespHex7 (s : State) : Host.Outcome State Fault Refusal := .next (s.sendNibble 7#4)

/-- RESP_HEX_8: the digit of nibble 8 (30_encoding.md R74). -/
def execRespHex8 (s : State) : Host.Outcome State Fault Refusal := .next (s.sendNibble 8#4)

/-- RESP_HEX_9: the digit of nibble 9 (30_encoding.md R74). -/
def execRespHex9 (s : State) : Host.Outcome State Fault Refusal := .next (s.sendNibble 9#4)

/-- RESP_HEX_A: the digit of nibble 10 (30_encoding.md R74). -/
def execRespHexA (s : State) : Host.Outcome State Fault Refusal := .next (s.sendNibble 10#4)

/-- RESP_HEX_B: the digit of nibble 11 (30_encoding.md R74). -/
def execRespHexB (s : State) : Host.Outcome State Fault Refusal := .next (s.sendNibble 11#4)

/-- RESP_HEX_C: the digit of nibble 12 (30_encoding.md R74). -/
def execRespHexC (s : State) : Host.Outcome State Fault Refusal := .next (s.sendNibble 12#4)

/-- RESP_HEX_D: the digit of nibble 13 (30_encoding.md R74). -/
def execRespHexD (s : State) : Host.Outcome State Fault Refusal := .next (s.sendNibble 13#4)

/-- RESP_HEX_E: the digit of nibble 14 (30_encoding.md R74). -/
def execRespHexE (s : State) : Host.Outcome State Fault Refusal := .next (s.sendNibble 14#4)

/-- RESP_HEX_F: the digit of nibble 15 (30_encoding.md R74). -/
def execRespHexF (s : State) : Host.Outcome State Fault Refusal := .next (s.sendNibble 15#4)

/-- RESP_TERM: LF, character 33 of a response (41_protocol_fsm.md R134). -/
def execRespTerm (s : State) : Host.Outcome State Fault Refusal := .next (s.writeChar charLf)

end Sys2Proof.Machine
end

