-- ==== Sys2Proof/Machine/Trigger.lean ====
section
/-! DEFINITION. The Trigger Controller (spec/42_trigger_controller.md). -/

namespace Sys2Proof.Machine

/-- The value the coming draw gives: the random source's next value, a free one where none is listed, brought into the
window (42_trigger_controller.md R165; log entry 8). -/
def State.nextDraw (s : State) : Nat :=
  drawFrom s.cfg (match s.rnd with
    | v :: _ => v
    | [] => Config.freeDraw s.draws)

/-- `JitterBefore()` (42_trigger_controller.md R164). -/
def State.jitterBefore (s : State) : State :=
  s.perform [.delay .settlePre, .sample s.nextDraw, .writeCal s.nextDraw, .delay .settlePost]

/-- `JitterAfter()` (42_trigger_controller.md R166). -/
def State.jitterAfter (s : State) : State :=
  s.perform [.writeCal s.cfg.cal.nominalCal, .delay .restore]

/-- `encryptBlock(block)`, in place, under the Engine's key (42_trigger_controller.md R163, 43_interfaces.md R184). -/
def State.encryptBlock (s : State) : State := s.act (.encrypt s.block (Config.enc s.ek s.block))

/-- Steps 2 to 4 of the sequence: the trigger bracket (42_trigger_controller.md R162, R163, R167). -/
def State.bracket (s : State) : State := ((s.act (.drive true)).encryptBlock).act (.drive false)

/-- `TriggerSequence()` (42_trigger_controller.md R161). -/
def State.triggerSequence (s : State) : State :=
  if s.jitterOn then s.jitterBefore.bracket.jitterAfter else s.bracket

end Sys2Proof.Machine
end

