-- ==== Sys2Proof/Machine/Completion.lean ====
section
/-! DEFINITION. The two command completions (spec/41_protocol_fsm.md section 6): the checks come first, and nothing is
written until both pass. -/

namespace Sys2Proof.Machine

/-- `KeyComplete()` (41_protocol_fsm.md R132). -/
def State.keyComplete (s : State) : State :=
  if s.keyLengthOk then
    match packDigits s.decodePayload.nibbles with
    | some r => s.decodePayload.perform [.decodeReturn, .writeKey r, .engSetKey r, .rewind, .goto .idle]
    | none => (s.decodePayload.act .decodeReturn).discard .invalidHexDigit
  else s.discard .badLength

/-- `encode(block, 16)`, then `EmitResponse`, then the return to Idle: what follows the trigger sequence
(41_protocol_fsm.md R133). -/
def State.respond (s : State) : State :=
  ((s.act .encodeCall).emitResponse (hexEncode s.block.toList 16)).perform [.rewind, .goto .idle]

/-- `PlaintextComplete()` (41_protocol_fsm.md R133). -/
def State.plaintextComplete (s : State) : State :=
  if s.blockLengthOk then
    match packDigits s.decodePayload.nibbles with
    | some r => ((s.decodePayload.perform [.decodeReturn, .writeBlock (blockOfBytes r)]).triggerSequence).respond
    | none => (s.decodePayload.act .decodeReturn).discard .invalidHexDigit
  else s.discard .badLength

end Sys2Proof.Machine
end

