-- ==== Sys2Proof/Machine/Terminator.lean ====
section
/-! DEFINITION. The terminators LF and CR (spec/41_protocol_fsm.md R124, R127, R130).  Either alone ends a command
(30_encoding.md R77). -/

namespace Sys2Proof.Machine

/-- TERM_LF.ReceivingKey: complete the key command (41_protocol_fsm.md R124). -/
def execTermLfReceivingKey (s : State) : Host.Outcome State Fault Refusal := .next s.keyComplete

/-- TERM_CR.ReceivingKey: complete the key command (41_protocol_fsm.md R124). -/
def execTermCrReceivingKey (s : State) : Host.Outcome State Fault Refusal := .next s.keyComplete

/-- TERM_LF.ReceivingPlaintext: complete the plaintext command (41_protocol_fsm.md R127). -/
def execTermLfReceivingPlaintext (s : State) : Host.Outcome State Fault Refusal := .next s.plaintextComplete

/-- TERM_CR.ReceivingPlaintext: complete the plaintext command (41_protocol_fsm.md R127). -/
def execTermCrReceivingPlaintext (s : State) : Host.Outcome State Fault Refusal := .next s.plaintextComplete

/-- TERM_LF.Idle: ignored (41_protocol_fsm.md R130). -/
def execTermLfIdle (s : State) : Host.Outcome State Fault Refusal := .next (s.perform [.goto .idle])

/-- TERM_CR.Idle: ignored (41_protocol_fsm.md R130). -/
def execTermCrIdle (s : State) : Host.Outcome State Fault Refusal := .next (s.perform [.goto .idle])

end Sys2Proof.Machine
end

