-- ==== Sys2Proof/Machine/Dispatch.lean ====
section
/-! DEFINITION. One arm per instruction: the meaning of each row of spec/opcode_table.json. -/

namespace Sys2Proof.Machine

def exec (i : Instr) (s : State) : Host.Outcome State Fault Refusal :=
  match i with
  | .cmdX => Sys2Proof.Machine.execCmdX s
  | .cmdK => Sys2Proof.Machine.execCmdK s
  | .cmdP => Sys2Proof.Machine.execCmdP s
  | .termLfReceivingKey => Sys2Proof.Machine.execTermLfReceivingKey s
  | .termCrReceivingKey => Sys2Proof.Machine.execTermCrReceivingKey s
  | .termLfReceivingPlaintext => Sys2Proof.Machine.execTermLfReceivingPlaintext s
  | .termCrReceivingPlaintext => Sys2Proof.Machine.execTermCrReceivingPlaintext s
  | .termLfIdle => Sys2Proof.Machine.execTermLfIdle s
  | .termCrIdle => Sys2Proof.Machine.execTermCrIdle s
  | .dataReceivingKeyFit c => Sys2Proof.Machine.execDataReceivingKeyFit c s
  | .dataReceivingKeyFull c => Sys2Proof.Machine.execDataReceivingKeyFull c s
  | .dataReceivingPlaintextFit c => Sys2Proof.Machine.execDataReceivingPlaintextFit c s
  | .dataReceivingPlaintextFull c => Sys2Proof.Machine.execDataReceivingPlaintextFull c s
  | .dataIdle c => Sys2Proof.Machine.execDataIdle c s
  | .hex0 => Sys2Proof.Machine.execHex0 s
  | .hex1 => Sys2Proof.Machine.execHex1 s
  | .hex2 => Sys2Proof.Machine.execHex2 s
  | .hex3 => Sys2Proof.Machine.execHex3 s
  | .hex4 => Sys2Proof.Machine.execHex4 s
  | .hex5 => Sys2Proof.Machine.execHex5 s
  | .hex6 => Sys2Proof.Machine.execHex6 s
  | .hex7 => Sys2Proof.Machine.execHex7 s
  | .hex8 => Sys2Proof.Machine.execHex8 s
  | .hex9 => Sys2Proof.Machine.execHex9 s
  | .hexAUpper => Sys2Proof.Machine.execHexAUpper s
  | .hexBUpper => Sys2Proof.Machine.execHexBUpper s
  | .hexCUpper => Sys2Proof.Machine.execHexCUpper s
  | .hexDUpper => Sys2Proof.Machine.execHexDUpper s
  | .hexEUpper => Sys2Proof.Machine.execHexEUpper s
  | .hexFUpper => Sys2Proof.Machine.execHexFUpper s
  | .hexALower => Sys2Proof.Machine.execHexALower s
  | .hexBLower => Sys2Proof.Machine.execHexBLower s
  | .hexCLower => Sys2Proof.Machine.execHexCLower s
  | .hexDLower => Sys2Proof.Machine.execHexDLower s
  | .hexELower => Sys2Proof.Machine.execHexELower s
  | .hexFLower => Sys2Proof.Machine.execHexFLower s
  | .hexInvalid c => Sys2Proof.Machine.execHexInvalid c s
  | .respLead => Sys2Proof.Machine.execRespLead s
  | .respHex0 => Sys2Proof.Machine.execRespHex0 s
  | .respHex1 => Sys2Proof.Machine.execRespHex1 s
  | .respHex2 => Sys2Proof.Machine.execRespHex2 s
  | .respHex3 => Sys2Proof.Machine.execRespHex3 s
  | .respHex4 => Sys2Proof.Machine.execRespHex4 s
  | .respHex5 => Sys2Proof.Machine.execRespHex5 s
  | .respHex6 => Sys2Proof.Machine.execRespHex6 s
  | .respHex7 => Sys2Proof.Machine.execRespHex7 s
  | .respHex8 => Sys2Proof.Machine.execRespHex8 s
  | .respHex9 => Sys2Proof.Machine.execRespHex9 s
  | .respHexA => Sys2Proof.Machine.execRespHexA s
  | .respHexB => Sys2Proof.Machine.execRespHexB s
  | .respHexC => Sys2Proof.Machine.execRespHexC s
  | .respHexD => Sys2Proof.Machine.execRespHexD s
  | .respHexE => Sys2Proof.Machine.execRespHexE s
  | .respHexF => Sys2Proof.Machine.execRespHexF s
  | .respTerm => Sys2Proof.Machine.execRespTerm s

end Sys2Proof.Machine
end

