-- ==== Sys2Proof/Machine/Loop.lean ====
section
/-! DEFINITION. The control loop: `readChar`, decode, execute (spec/41_protocol_fsm.md R120), and reset
(70_reset_and_hazards.md R230, R231). -/

namespace Sys2Proof.Machine

/-- One turn of the loop with no reset in the way: consume one character and run its instruction; with no character
the block stays in `readChar` (43_interfaces.md R180, 60_exceptions.md R217 (a); log entry 10). -/
def serve (s : State) : Host.Outcome State Fault Refusal :=
  match s.rx with
  | [] => .next s
  | c :: _ => exec (decodeStep s.st s.hasRoom c) (s.act (.rx c))

/-- A turn that a reset cuts short after `k` of its actions (70_reset_and_hazards.md R231; log entry 11). -/
def resetDuring (k : Nat) (s : State) : Host.Outcome State Fault Refusal :=
  match serve s with
  | .next t => .next (s.cutAt t k).resetNow
  | .fault f => .fault f
  | .refused r => .refused r

/-- One step: a build that breaks 00_scope.md R13 is refused; a pending reset is served; otherwise one turn. -/
def loopStep (s : State) : Host.Outcome State Fault Refusal :=
  if legal s.cfg then
    match s.rst with
    | none => serve s
    | some k => resetDuring k s
  else .refused .illegalConfiguration

end Sys2Proof.Machine
end

