-- ==== Sys2Proof/Machine/Step.lean ====
section
/-! DEFINITION. The step (spec/00_scope.md R14, R17; 41_protocol_fsm.md R120), and how a table word is placed for it. -/

namespace Sys2Proof.Machine

/-- One step of the block. -/
def step (s : State) : Host.Outcome State Fault Refusal := loopStep s

/-- `s` with the table word's character as the next one the Transport delivers (log entry 14). -/
def State.withFetchWord (s : State) (nbits w : Nat) : State := s.deliver (BitVec.ofNat 8 (w % 2 ^ nbits))

end Sys2Proof.Machine
end

