-- ==== Sys2Proof/Safety.lean ====
section
/-! DEFINITION. The terms claims use: the invariants of a run (spec/41_protocol_fsm.md R136), the trigger bracket
(42_trigger_controller.md R167), pulse counts (R168), and what an observer sees of a run. -/

namespace Sys2Proof.Machine

/-- What holds after reset and after every step (41_protocol_fsm.md R136), with the model's own part: KEY has
KEY_LENGTH bytes (10_state.md R27) and no decode is in progress (40_hex_codec.md R100). -/
structure ProtocolInv (s : State) : Prop where
  /-- (a) -/
  ptr_le : s.ptr ≤ bufLen s.cfg
  /-- (b) -/
  idle_empty : s.st = .idle → s.ptr = 0
  /-- (c) -/
  trig_low : s.trig = false
  /-- (d) -/
  key_eq_ek : s.key = s.ek
  /-- (e) -/
  cal_nominal : s.cfg.jitter ≠ .off → s.cal = s.cfg.cal.nominalCal
  /-- (f) -/
  buf_data : ∀ c ∈ s.buf, classify c = .data
  key_length : s.key.length = s.cfg.keyLength
  nibbles_empty : s.nibbles = []

/-- No reset request that would land inside the coming step: none at all, or one served before the step begins. -/
def NoResetInside (s : State) : Prop := s.rst = none ∨ s.rst = some 0

/-- Trigger bracketing, over everything the block does and not only over events (42_trigger_controller.md R167): each
rise of the line is followed at once by one encryption, and that at once by the fall; neither a fall nor an encryption
stands anywhere else. -/
def Bracketed : List Action → Bool
  | [] => true
  | .drive true :: .encrypt _ _ :: .drive false :: rest => Bracketed rest
  | .drive _ :: _ => false
  | .encrypt _ _ :: _ => false
  | _ :: rest => Bracketed rest

/-- Where a run stands with respect to the trigger bracket: outside it, after the rise, after the encryption. -/
inductive BracketPhase where
  | outside
  | risen
  | encrypted
deriving DecidableEq, Repr

/-- The bracket's next phase, `none` where an action breaks the bracket: inside it only the encryption, the fall, or a
reset, which abandons it, may come (42_trigger_controller.md R167; 70_reset_and_hazards.md R231). -/
def BracketPhase.after : BracketPhase → Action → Option BracketPhase
  | .outside, .drive true => some .risen
  | .outside, .drive false => none
  | .outside, .encrypt _ _ => none
  | .outside, _ => some .outside
  | .risen, .encrypt _ _ => some .encrypted
  | .risen, .abandon => some .outside
  | .risen, _ => none
  | .encrypted, .drive false => some .outside
  | .encrypted, .abandon => some .outside
  | .encrypted, _ => none

/-- The bracket's phase after some actions. -/
def bracketPhase : List Action → BracketPhase → Option BracketPhase
  | [], p => some p
  | a :: as, p =>
    match p.after a with
    | none => none
    | some q => bracketPhase as q

/-- Is this event a call of `encryptBlock`? -/
def Event.isEncrypt : Event → Bool
  | .engEncrypt _ _ => true
  | _ => false

/-- 42_trigger_controller.md R168: rises, falls, encryptions, first and last characters of responses, equally many. -/
def PulsesBalanced (es : List Event) : Prop :=
  es.count (.trig true) = es.count (.trig false) ∧
  es.count (.trig true) = es.countP Event.isEncrypt ∧
  es.count (.trig true) = es.count (.tx charR) ∧
  es.count (.trig true) = es.count (.tx charLf)

/-- The character an event hands to the Transport. -/
def Event.sent? : Event → Option Byte
  | .tx c => some c
  | _ => none

/-- The character an event takes from the Transport. -/
def Event.received? : Event → Option Byte
  | .rx c => some c
  | _ => none

/-- The TX stream of a run (20_memory.md R50): the characters handed to the Transport, in order. -/
def State.sent (s : State) : List Byte := s.events.filterMap Event.sent?

/-- The characters of the response for a block: 'r', 32 upper-case hex digits, LF (30_encoding.md R76). -/
def responseFrame (b : Block) : List Byte := charR :: hexEncode b.toList 16 ++ [charLf]

/-- An upper-case hex digit, `UHEX` (30_encoding.md R76). -/
def isUpperHex (c : Byte) : Bool :=
  decide (0x30 ≤ c.toNat ∧ c.toNat ≤ 0x39) || decide (0x41 ≤ c.toNat ∧ c.toNat ≤ 0x46)

/-- A hex digit, `HEX` (30_encoding.md R75). -/
def isHexDigit (c : Byte) : Bool := (hexVal c).isSome

/-- A lower-case hex letter (40_hex_codec.md R109). -/
def isLowerHex (c : Byte) : Bool := decide (0x61 ≤ c.toNat ∧ c.toNat ≤ 0x66)

/-- A store reads as before, byte by byte (20_memory.md R51). -/
def SameStore (sp : Space) (s t : State) : Prop := ∀ i, t.readByte sp i = s.readByte sp i

/-- The actions of one whole `decode` of a payload (40_hex_codec.md R102). -/
def decodeActions (payload : List Byte) : List Action :=
  .decodeCall :: (payload.map fun c => .digit (hexVal c)) ++ [.decodeReturn]

/-- The actions of the trigger bracket on a block (42_trigger_controller.md R162, R163). -/
def bracketActions (ek : List Byte) (b : Block) : List Action :=
  [.drive true, .encrypt b (Config.enc ek b), .drive false]

/-- The actions of a response and of the return to Idle after it (41_protocol_fsm.md R133, R134). -/
def respondActions (b : Block) : List Action :=
  .encodeCall :: (responseFrame b).map .tx ++ [.rewind, .goto .idle]

end Sys2Proof.Machine
end

