-- ==== Sys2Proof/Certificates/Slice0/Obligations.lean ====
section
/-! DEFINITION. The statements for the provers. -/

open Sys2Proof Sys2Proof.Machine

/-! ## Decoding -/

/-- Characters written out from the spec's encodings decode to the rows they stand for (30_encoding.md section 6,
spec/opcode_table.json).  The numeric codes are ASCII, which the spec marks as general knowledge (log entry 17). -/
def Obligations.CharactersDecodeToTheirRows : Prop :=
  (∀ st room, decode (.step st room) 0b01111000#8 = .ok .cmdX) ∧
  (∀ st room, decode (.step st room) 0b01101011#8 = .ok .cmdK) ∧
  (∀ st room, decode (.step st room) 0b01110000#8 = .ok .cmdP) ∧
  (∀ room, decode (.step .receivingKey room) 0b00001010#8 = .ok .termLfReceivingKey) ∧
  (∀ room, decode (.step .receivingPlaintext room) 0b00001101#8 = .ok .termCrReceivingPlaintext) ∧
  decode (.step .receivingKey true) 0b01001011#8 = .ok (.dataReceivingKeyFit 0x4B#8) ∧
  decode (.step .receivingPlaintext false) 0b10000000#8 = .ok (.dataReceivingPlaintextFull 0x80#8) ∧
  decode .hex 0b01100001#8 = .ok .hexALower ∧
  decode .hex 0b01000111#8 = .ok (.hexInvalid 0x47#8) ∧
  decode .tx 0b01110010#8 = .ok .respLead ∧
  decode .tx 0b01000110#8 = .ok .respHexF ∧
  decode .tx 0b01100110#8 = .error (.notTransmitted 0x66#8)

/-- Decode and encode agree, for every well-formed instruction in every context its row applies in. -/
def Obligations.DecodeOfEncodeIsTheInstruction : Prop :=
  ∀ (i : Instr) (ctx : Context), i.wellFormed = true → i.runsIn ctx = true → decode ctx (encode i) = .ok i

/-- The other direction: what is read in a context is well formed, applies there, and encodes to the character read;
and in a step and inside `decode` every character is read (41_protocol_fsm.md R135). -/
def Obligations.EveryCharacterHasExactlyOneRow : Prop :=
  (∀ (ctx : Context) (c : Byte) (i : Instr), decode ctx c = .ok i →
    i.wellFormed = true ∧ i.runsIn ctx = true ∧ encode i = c ∧
    ∀ j : Instr, j.wellFormed = true → j.runsIn ctx = true → encode j = c → j = i) ∧
  (∀ (ctx : Context) (c : Byte), ctx ≠ .tx → ∃ i, decode ctx c = .ok i)

/-- HexVal over all 256 characters (30_encoding.md R73; that the others are Invalid is the spec's decision D6). -/
def Obligations.HexValHasTwentyTwoDigits : Prop :=
  (∀ n : Nat, n < 10 → hexVal (BitVec.ofNat 8 (0x30 + n)) = some (BitVec.ofNat 4 n)) ∧
  (∀ n : Nat, n < 6 → hexVal (BitVec.ofNat 8 (0x41 + n)) = some (BitVec.ofNat 4 (10 + n))) ∧
  (∀ n : Nat, n < 6 → hexVal (BitVec.ofNat 8 (0x61 + n)) = some (BitVec.ofNat 4 (10 + n))) ∧
  (∀ c : Byte, ¬ (0x30 ≤ c.toNat ∧ c.toNat ≤ 0x39) → ¬ (0x41 ≤ c.toNat ∧ c.toNat ≤ 0x46) →
    ¬ (0x61 ≤ c.toNat ∧ c.toNat ≤ 0x66) → hexVal c = none)

/-! ## The Hex Codec -/

/-- `decode` computes the bytes of the pairs, and fails exactly when a character it looks at is no hex digit
(40_hex_codec.md R102). -/
def Obligations.DecodeComputesThePairs : Prop :=
  ∀ (ascii : List Byte) (n : Nat), 2 * n ≤ ascii.length →
    (hexDecode ascii (2 * n) = none ↔ ∃ c ∈ ascii.take (2 * n), hexVal c = none) ∧
    (∀ bytes, hexDecode ascii (2 * n) = some bytes →
      bytes.length = n ∧
      ∀ j hn ln, j < n → hexVal (ascii.getD (2 * j) 0) = some hn → hexVal (ascii.getD (2 * j + 1) 0) = some ln →
        (bytes.getD j 0).toNat = hn.toNat * 16 + ln.toNat)

/-- `decode` undoes `encode` (40_hex_codec.md R108). -/
def Obligations.DecodeOfEncodedBytesIsTheBytes : Prop :=
  ∀ b : List Byte, hexDecode (hexEncode b b.length) (2 * b.length) = some b

/-- `encode` of what `decode` gives upper-cases the payload, and equals it exactly when it has no lower-case letter
(40_hex_codec.md R109, an inference the spec marks as its own). -/
def Obligations.EncodeOfDecodedPayloadUpperCasesIt : Prop :=
  ∀ (ascii bytes : List Byte) (n : Nat), ascii.length = 2 * n → hexDecode ascii (2 * n) = some bytes →
    hexEncode bytes n = ascii.map upperCase ∧
    (hexEncode bytes n = ascii ↔ ∀ c ∈ ascii, isLowerHex c = false)

/-- Lengths of the codec's results (40_hex_codec.md R110). -/
def Obligations.CodecLengthsAreHalfAndDouble : Prop :=
  (∀ (ascii bytes : List Byte) (n : Nat), n ≤ ascii.length → n % 2 = 0 → hexDecode ascii n = some bytes →
    bytes.length = n / 2) ∧
  (∀ (bytes : List Byte) (n : Nat), n ≤ bytes.length → (hexEncode bytes n).length = 2 * n)

/-- Case does not matter on input, and output is upper case only (40_hex_codec.md R103, 30_encoding.md R78). -/
def Obligations.HexIsCaseInsensitiveInUpperCaseOut : Prop :=
  (∀ c : Byte, hexVal (upperCase c) = hexVal c) ∧
  (∀ (bytes : List Byte) (n : Nat), ∀ c ∈ hexEncode bytes n, isUpperHex c = true)

/-- The HexVal rows: each delivers its digit's value to the decode in progress and changes nothing else
(30_encoding.md R73).  That a row is an instruction of its own, and the field `nibbles`, are the model's (log entry 13). -/
def Obligations.HexRowsDeliverTheirValue : Prop :=
  (∀ p ∈ ([(.hex0, 0), (.hex1, 1), (.hex2, 2), (.hex3, 3), (.hex4, 4), (.hex5, 5), (.hex6, 6), (.hex7, 7), (.hex8, 8),
      (.hex9, 9), (.hexAUpper, 10), (.hexBUpper, 11), (.hexCUpper, 12), (.hexDUpper, 13), (.hexEUpper, 14),
      (.hexFUpper, 15), (.hexALower, 10), (.hexBLower, 11), (.hexCLower, 12), (.hexDLower, 13), (.hexELower, 14),
      (.hexFLower, 15)] : List (Instr × Nibble)),
    ∀ s : State, exec p.1 s =
      .next { s with nibbles := s.nibbles ++ [some p.2], trace := s.trace ++ [.digit (some p.2)] }) ∧
  (∀ (c : Byte) (s : State), exec (.hexInvalid c) s =
      .next { s with nibbles := s.nibbles ++ [none], trace := s.trace ++ [.digit none] })

/-- A completion's decode runs, for every payload character, exactly the HexVal row that character decodes to, and ends
with the digits `decode` pairs (40_hex_codec.md R102; the row as an instruction is the model's, log entry 13). -/
def Obligations.DecodingAPayloadRunsItsHexRows : Prop :=
  (∀ (c : Byte) (s : State), ∃ i, decode .hex c = .ok i ∧ exec i s = .next (s.act (.digit (hexVal c)))) ∧
  (∀ s : State, s.decodePayload.trace = s.trace ++ .decodeCall :: s.buf.map (fun c => .digit (hexVal c)) ∧
    packDigits s.decodePayload.nibbles = hexDecode s.buf s.ptr)

/-- The transmit rows: each hands its character to the Transport and changes nothing else (30_encoding.md R74, R76).
That a row is an instruction of its own is the model's (log entry 13). -/
def Obligations.ResponseRowsTransmitTheirCharacter : Prop :=
  ∀ p ∈ ([(.respLead, 0x72), (.respHex0, 0x30), (.respHex1, 0x31), (.respHex2, 0x32), (.respHex3, 0x33),
      (.respHex4, 0x34), (.respHex5, 0x35), (.respHex6, 0x36), (.respHex7, 0x37), (.respHex8, 0x38), (.respHex9, 0x39),
      (.respHexA, 0x41), (.respHexB, 0x42), (.respHexC, 0x43), (.respHexD, 0x44), (.respHexE, 0x45), (.respHexF, 0x46),
      (.respTerm, 0x0A)] : List (Instr × Byte)),
    ∀ s : State, exec p.1 s = .next { s with trace := s.trace ++ [.tx p.2] }

/-- Emitting a response is `writeChar` of each character of its frame, in order, and every one of them has a transmit row
whose `exec` is that `writeChar`: no character of a response is outside the transmit table (30_encoding.md R76,
41_protocol_fsm.md R134; the row as an instruction is the model's, log entry 13). -/
def Obligations.EmittingAResponseRunsItsTransmitRows : Prop :=
  ∀ b : Block,
    (∀ s : State, s.emitResponse (hexEncode b.toList 16) = (responseFrame b).foldl State.writeChar s) ∧
    (∀ c : Byte, c ∈ responseFrame b → ∃ i, decode .tx c = .ok i ∧ ∀ s : State, exec i s = .next (s.writeChar c))

/-! ## Command characters -/

/-- CMD_X, CMD_K and CMD_P in every state: the cursor to 0, the new Protocol State, and nothing else: no event, no store
but the Capture Buffer (41_protocol_fsm.md R121, R122, R123, R138). -/
def Obligations.CommandCharactersOverrideEveryState : Prop :=
  ∀ p ∈ ([(charX, .cmdX, .idle), (charK, .cmdK, .receivingKey), (charP, .cmdP, .receivingPlaintext)] :
      List (Byte × Instr × Protocol)),
    ∀ s : State, decode (.step s.st s.hasRoom) p.1 = .ok p.2.1 ∧
      ∃ t, exec p.2.1 s = .next t ∧
        t = { s with st := p.2.2, buf := [], trace := s.trace ++ [.rewind, .goto p.2.2] } ∧
        t.ptr = 0 ∧ t.events = s.events ∧ SameStore .key s t ∧ SameStore .block s t

/-- `'x'` sent again changes nothing (41_protocol_fsm.md R121). -/
def Obligations.AbortIsIdempotent : Prop :=
  ∀ s t u : State, exec .cmdX s = .next t → exec .cmdX t = .next u →
    u = { t with trace := t.trace ++ [.rewind, .goto .idle] }

/-! ## DATA characters -/

/-- DATA with room: the character at the old cursor, the cursor advanced, every other byte of every store and everything
else as before (41_protocol_fsm.md R125, R128). -/
def Obligations.DataWithRoomIsAppended : Prop :=
  ∀ p ∈ ([(.dataReceivingKeyFit, .receivingKey), (.dataReceivingPlaintextFit, .receivingPlaintext)] :
      List ((Byte → Instr) × Protocol)),
    ∀ (c : Byte) (s : State), s.st = p.2 → s.ptr < bufLen s.cfg →
      (classify c = .data → decode (.step s.st s.hasRoom) c = .ok (p.1 c)) ∧
      ∃ t, exec (p.1 c) s = .next t ∧
        t = { s with buf := s.buf ++ [c], trace := s.trace ++ [.append c, .goto s.st] } ∧
        t.ptr = s.ptr + 1 ∧ t.ptr ≤ bufLen t.cfg ∧ t.events = s.events ∧
        t.readByte .buf s.ptr = .ok c ∧
        ∀ sp a, (sp, a) ≠ (.buf, s.ptr) → t.readByte sp a = s.readByte sp a

/-- An append without room, which no step makes, stops: the byte it would write does not exist (20_memory.md R51; the
fault is the model's, log entry 15). -/
def Obligations.AppendWithoutRoomFaults : Prop :=
  ∀ (c : Byte) (s : State), ¬ s.ptr < bufLen s.cfg →
    exec (.dataReceivingKeyFit c) s = .fault (.outOfStore .buf s.ptr) ∧
    exec (.dataReceivingPlaintextFit c) s = .fault (.outOfStore .buf s.ptr)

/-- DATA without room, on either path: Overflow, the discard and nothing else (41_protocol_fsm.md R129; on the key path
the spec's decision D5, 90_conflicts.md C1). -/
def Obligations.DataWithoutRoomDiscardsTheCommand : Prop :=
  ∀ p ∈ ([(.dataReceivingKeyFull, .receivingKey), (.dataReceivingPlaintextFull, .receivingPlaintext)] :
      List ((Byte → Instr) × Protocol)),
    ∀ (c : Byte) (s : State),
      (s.st = p.2 → ¬ s.ptr < bufLen s.cfg → classify c = .data → decode (.step s.st s.hasRoom) c = .ok (p.1 c)) ∧
      ∃ t, exec (p.1 c) s = .next t ∧
        t = { s with st := .idle, buf := [], trace := s.trace ++ [.raise .overflow, .rewind, .goto .idle] } ∧
        t.ptr = 0 ∧ t.events = s.events ∧ SameStore .key s t ∧ SameStore .block s t

/-- In Idle, terminators and DATA leave everything as it was (41_protocol_fsm.md R130, R131). -/
def Obligations.IdleIgnoresTerminatorsAndData : Prop :=
  ∀ s : State, s.st = .idle →
    (∀ i ∈ [Instr.termLfIdle, .termCrIdle], exec i s = .next { s with trace := s.trace ++ [.goto .idle] }) ∧
    (∀ c : Byte, exec (.dataIdle c) s = .next { s with trace := s.trace ++ [.goto .idle] }) ∧
    (∀ c : Byte, classify c = .data ∨ classify c = .term →
      ∃ i, decode (.step s.st s.hasRoom) c = .ok i ∧ i ∈ [Instr.termLfIdle, .termCrIdle, .dataIdle c])

/-! ## Terminators -/

/-- A key command whose payload has 2 × KEY_LENGTH hex digits: the Key and the Engine's key become the decoded bytes, key
written first, then `setKey`, then the cursor rewound; Idle; one event; nothing sent (41_protocol_fsm.md R124, R132). -/
def Obligations.KeyCompletionRekeysTheEngine : Prop :=
  ∀ i ∈ [Instr.termLfReceivingKey, .termCrReceivingKey], ∀ (s : State) (r : List Byte),
    s.ptr = keyDigits s.cfg → hexDecode s.buf s.ptr = some r →
      ∃ t, exec i s = .next t ∧
        t = { s with
          key := r, ek := r, st := .idle, buf := [], nibbles := []
          trace := s.trace ++ decodeActions s.buf ++ [.writeKey r, .engSetKey r, .rewind, .goto .idle] } ∧
        t.events = s.events ++ [.engSetKey r] ∧ r.length = s.cfg.keyLength ∧ t.sent = s.sent ∧ SameStore .block s t

/-- A key command that fails a check, length before digits: the discard, with Key, Block and Engine as they were, and no
event (the spec's decisions D6, D7, D8; 60_exceptions.md section 2). -/
def Obligations.KeyCompletionDiscardsBadPayloads : Prop :=
  ∀ i ∈ [Instr.termLfReceivingKey, .termCrReceivingKey], ∀ s : State,
    (s.ptr ≠ keyDigits s.cfg →
      exec i s = .next { s with
        st := .idle, buf := [], trace := s.trace ++ [.raise .badLength, .rewind, .goto .idle] }) ∧
    (s.ptr = keyDigits s.cfg → hexDecode s.buf s.ptr = none →
      ∃ t, exec i s = .next t ∧
        t = { s with
          st := .idle, buf := [], nibbles := []
          trace := s.trace ++ decodeActions s.buf ++ [.raise .invalidHexDigit, .rewind, .goto .idle] } ∧
        t.events = s.events ∧ SameStore .key s t ∧ SameStore .block s t)

/-- A plaintext command of 32 hex digits in a build without jitter: decode, write the block, raise the trigger, encrypt
in place under the Engine's key, lower the trigger, encode, send 34 characters, Idle; the block written is the 16 decoded
bytes in order (41_protocol_fsm.md R127, R133, R134; 42_trigger_controller.md R161; 20_memory.md R52 (b)). -/
def Obligations.PlaintextCompletionEncryptsAndAnswers : Prop :=
  ∀ i ∈ [Instr.termLfReceivingPlaintext, .termCrReceivingPlaintext], ∀ (s : State) (r : List Byte),
    s.cfg.jitter = .off → s.ptr = 32 → hexDecode s.buf 32 = some r →
      r.length = 16 ∧ (blockOfBytes r).toList = r ∧
      ∃ t, exec i s = .next t ∧
        t = { s with
          block := Config.enc s.ek (blockOfBytes r), trig := false, st := .idle, buf := [], nibbles := []
          trace := s.trace ++ decodeActions s.buf ++ [.writeBlock (blockOfBytes r)]
            ++ bracketActions s.ek (blockOfBytes r) ++ respondActions t.block } ∧
        t.events = s.events ++ [.trig true, .engEncrypt (blockOfBytes r) t.block, .trig false]
          ++ (responseFrame t.block).map .tx ∧
        t.sent = s.sent ++ responseFrame t.block ∧ SameStore .key s t

/-- The same in a build with jitter: the calibration write and its delays before the bracket, the restore and its delay
after it, then the response (42_trigger_controller.md R161, R164, R166; 20_memory.md R52 (b); the draw is a free value, log entry 8). -/
def Obligations.PlaintextCompletionWithJitterCalibratesOutsideTheBracket : Prop :=
  ∀ i ∈ [Instr.termLfReceivingPlaintext, .termCrReceivingPlaintext], ∀ (s : State) (r : List Byte),
    s.cfg.jitter ≠ .off → legal s.cfg = true → s.ptr = 32 → hexDecode s.buf 32 = some r →
      r.length = 16 ∧ (blockOfBytes r).toList = r ∧
      ∃ (t : State) (v : Nat), exec i s = .next t ∧ calLo s.cfg ≤ v ∧ (v : Int) ≤ calHi s.cfg ∧
        t = { s with
          block := Config.enc s.ek (blockOfBytes r), trig := false, cal := s.cfg.cal.nominalCal
          st := .idle, buf := [], nibbles := [], rnd := s.rnd.tail, draws := s.draws + 1
          trace := s.trace ++ decodeActions s.buf ++ [.writeBlock (blockOfBytes r)]
            ++ [.delay .settlePre, .sample v, .writeCal v, .delay .settlePost]
            ++ bracketActions s.ek (blockOfBytes r)
            ++ [.writeCal s.cfg.cal.nominalCal, .delay .restore] ++ respondActions t.block } ∧
        t.events = s.events ++ [.delay .settlePre, .cal v, .delay .settlePost, .trig true,
            .engEncrypt (blockOfBytes r) t.block, .trig false, .cal s.cfg.cal.nominalCal, .delay .restore]
          ++ (responseFrame t.block).map .tx ∧ SameStore .key s t

/-- A plaintext command that fails a check, length before digits: the discard; no write, no pulse, nothing sent (the
spec's decisions D6, D7, D8; 60_exceptions.md section 2). -/
def Obligations.PlaintextCompletionDiscardsBadPayloads : Prop :=
  ∀ i ∈ [Instr.termLfReceivingPlaintext, .termCrReceivingPlaintext], ∀ s : State,
    (s.ptr ≠ 32 →
      exec i s = .next { s with
        st := .idle, buf := [], trace := s.trace ++ [.raise .badLength, .rewind, .goto .idle] }) ∧
    (s.ptr = 32 → hexDecode s.buf 32 = none →
      ∃ t, exec i s = .next t ∧
        t = { s with
          st := .idle, buf := [], nibbles := []
          trace := s.trace ++ decodeActions s.buf ++ [.raise .invalidHexDigit, .rewind, .goto .idle] } ∧
        t.events = s.events ∧ SameStore .key s t ∧ SameStore .block s t)

/-- A terminator in a receiving state always completes, whatever the payload, ending in Idle with cursor 0 and the trigger
line as a completion leaves it; a key command writes neither block nor calibration, a plaintext command neither key nor
Engine key (41_protocol_fsm.md R124, R127, R132, R133). -/
def Obligations.TerminatorsAlwaysReturnToIdle : Prop :=
  (∀ i ∈ [Instr.termLfReceivingKey, .termCrReceivingKey], ∀ s : State,
    ∃ t, exec i s = .next t ∧ t.st = .idle ∧ t.ptr = 0 ∧ t.block = s.block ∧ t.trig = s.trig ∧ t.cal = s.cal ∧
      t.cfg = s.cfg ∧ t.rx = s.rx ∧ t.rst = s.rst ∧ t.sent = s.sent) ∧
  (∀ i ∈ [Instr.termLfReceivingPlaintext, .termCrReceivingPlaintext], ∀ s : State,
    ∃ t, exec i s = .next t ∧ t.st = .idle ∧ t.ptr = 0 ∧ t.key = s.key ∧ t.ek = s.ek ∧
      (s.trig = false → t.trig = false) ∧ t.cfg = s.cfg ∧ t.rx = s.rx ∧ t.rst = s.rst)

/-- With KEY_LENGTH below 8 no plaintext command can complete: every terminator in ReceivingPlaintext is BadLength
(00_scope.md R13 (b), an inference the spec marks as its own). -/
def Obligations.ShortKeyBuildsNeverEncrypt : Prop :=
  ∀ i ∈ [Instr.termLfReceivingPlaintext, .termCrReceivingPlaintext], ∀ s : State,
    s.cfg.keyLength < 8 → s.ptr ≤ bufLen s.cfg →
      exec i s = .next { s with
        st := .idle, buf := [], trace := s.trace ++ [.raise .badLength, .rewind, .goto .idle] }

/-! ## Trigger, response, draw -/

/-- `TriggerSequence` without jitter and with it: its events, the block replaced, the line low again, the calibration
nominal again (42_trigger_controller.md R161, R163, R164; R166, the spec's decision D23).  That the draw is `nextDraw` and
uses up `rnd` and `draws` is the model's: the draw is a free value, log entry 8. -/
def Obligations.TriggerSequenceHasItsEvents : Prop :=
  ∀ s : State,
    (s.cfg.jitter = .off →
      s.triggerSequence = { s with
        block := Config.enc s.ek s.block, trig := false
        trace := s.trace ++ [.drive true, .encrypt s.block (Config.enc s.ek s.block), .drive false] } ∧
      s.triggerSequence.events =
        s.events ++ [.trig true, .engEncrypt s.block (Config.enc s.ek s.block), .trig false]) ∧
    (s.cfg.jitter ≠ .off →
      s.triggerSequence = { s with
        block := Config.enc s.ek s.block, trig := false, cal := s.cfg.cal.nominalCal
        rnd := s.rnd.tail, draws := s.draws + 1
        trace := s.trace ++ [.delay .settlePre, .sample s.nextDraw, .writeCal s.nextDraw, .delay .settlePost,
          .drive true, .encrypt s.block (Config.enc s.ek s.block), .drive false,
          .writeCal s.cfg.cal.nominalCal, .delay .restore] } ∧
      s.triggerSequence.events =
        s.events ++ [.delay .settlePre, .cal s.nextDraw, .delay .settlePost, .trig true,
          .engEncrypt s.block (Config.enc s.ek s.block), .trig false, .cal s.cfg.cal.nominalCal, .delay .restore])

/-- `EmitResponse` sends 'r', the 32 characters, LF, in this order: 34 events, and nothing else changes
(41_protocol_fsm.md R134). -/
def Obligations.EmitResponseSendsThirtyFourCharacters : Prop :=
  ∀ (s : State) (out : List Byte), out.length = 32 →
    ∃ es, es = (0x72#8 :: out ++ [0x0A#8]).map Event.tx ∧ es.length = 34 ∧
      (s.emitResponse out).events = s.events ++ es ∧
      s.emitResponse out = { s with trace := s.trace ++ (0x72#8 :: out ++ [0x0A#8]).map .tx }

/-- A draw of a legal build with jitter lies in the closed window, and every value of the window can be drawn
(42_trigger_controller.md R165, the spec's decision D15; how a value comes in is the model's, log entry 8). -/
def Obligations.DrawsFillExactlyTheWindow : Prop :=
  ∀ s : State, legal s.cfg = true → s.cfg.jitter ≠ .off →
    (calLo s.cfg ≤ s.nextDraw ∧ (s.nextDraw : Int) ≤ calHi s.cfg) ∧
    ∀ v : Nat, calLo s.cfg ≤ v → (v : Int) ≤ calHi s.cfg → State.nextDraw { s with rnd := v :: s.rnd } = v

/-- Two states that differ only in what the random source will answer: one step leaves the same registers and stores and
has sent the same characters; the draw changes timing, not values (95_test_vectors.md, note to T1 to T3). -/
def Obligations.DrawsReachNoDataAndNoResponse : Prop :=
  ∀ (s t t' : State) (rnd : List Nat) (draws : Nat), s.rst = none →
    step s = .next t → step { s with rnd := rnd, draws := draws } = .next t' →
      t'.st = t.st ∧ t'.buf = t.buf ∧ t'.key = t.key ∧ t'.block = t.block ∧ t'.trig = t.trig ∧ t'.ek = t.ek ∧
      t'.cal = t.cal ∧ t'.rx = t.rx ∧ t'.sent = t.sent

/-! ## The step -/

/-- A step of a legal build with no reset pending consumes the next character and is `exec` of the instruction that
character decodes to, in the context of `st` and the capacity guard (41_protocol_fsm.md R120). -/
def Obligations.StepRunsTheDecodedInstruction : Prop :=
  ∀ (s : State) (c : Byte) (rest : List Byte) (i : Instr),
    legal s.cfg = true → s.rst = none → s.rx = c :: rest → decode (.step s.st s.hasRoom) c = .ok i →
      i.wellFormed = true ∧ step s = exec i { s with rx := rest, trace := s.trace ++ [.rx c] }

/-- With no character the block waits in `readChar` and nothing changes (43_interfaces.md R180, 60_exceptions.md R217
(a); that waiting is a step is the model's, log entry 10). -/
def Obligations.StepWaitsWhenNoCharacterCame : Prop :=
  ∀ s : State, legal s.cfg = true → s.rst = none → s.rx = [] → step s = .next s

/-- Every step of a legal build has a next state: no character is refused and none stops the block
(41_protocol_fsm.md R135, 60_exceptions.md R206: inferences the spec marks as its own). -/
def Obligations.LegalBuildsAlwaysStep : Prop :=
  ∀ s : State, legal s.cfg = true → ∃ t, step s = .next t ∧ t.cfg = s.cfg

/-- A build that breaks the constraints is refused, and only such a build (00_scope.md R13 (a), (d), the spec's decisions
D15, D19; the bound on NOMINAL_CAL is the model's inference, log entry 3). -/
def Obligations.IllegalBuildsAreRefused : Prop :=
  ∀ s : State,
    step s = .refused .illegalConfiguration ↔
      ¬ (1 ≤ s.cfg.keyLength ∧ s.cfg.defaultKey.length = s.cfg.keyLength ∧
        (s.cfg.jitter = .off ∨
          (0 ≤ calLo s.cfg ∧ calLo s.cfg ≤ calHi s.cfg ∧ calHi s.cfg ≤ 2 ^ s.cfg.cal.calWidth - 1 ∧
            s.cfg.cal.nominalCal < 2 ^ s.cfg.cal.calWidth)))

/-- One step takes exactly one character, the first that came, and takes it first (41_protocol_fsm.md R120,
20_memory.md R55, R57). -/
def Obligations.StepTakesExactlyOneCharacter : Prop :=
  ∀ (s t : State) (c : Byte) (rest : List Byte), s.rst = none → s.rx = c :: rest → step s = .next t →
    t.rx = rest ∧ ∃ es, t.events = s.events ++ .rx c :: es ∧ es.filterMap Event.received? = []

/-- What a step sends is nothing, or exactly one whole response for the block it leaves: 34 characters, 'r', 32
upper-case hex digits, LF (30_encoding.md R76). -/
def Obligations.StepSendsNothingOrOneWholeResponse : Prop :=
  ∀ s t : State, s.rst = none → step s = .next t →
    t.sent = s.sent ∨
    ∃ hex, t.sent = s.sent ++ (0x72#8 :: hex ++ [0x0A#8]) ∧ hex = hexEncode t.block.toList 16 ∧ hex.length = 32 ∧
      ∀ c ∈ hex, isUpperHex c = true

/-- The Key and the Engine's key change only by a terminator in ReceivingKey after 2 × KEY_LENGTH hex digits, together
and to the decoded bytes (70_reset_and_hazards.md R247, an inference the spec marks as its own). -/
def Obligations.KeysChangeOnlyByKeyCompletion : Prop :=
  ∀ s t : State, s.rst = none → step s = .next t →
    (t.key = s.key ∧ t.ek = s.ek) ∨
    ∃ c rest r, s.rx = c :: rest ∧ classify c = .term ∧ s.st = .receivingKey ∧ s.ptr = keyDigits s.cfg ∧
      hexDecode s.buf s.ptr = some r ∧ t.key = r ∧ t.ek = r

/-- The Block changes only by a terminator in ReceivingPlaintext after 32 hex digits, to what the Engine makes of the
decoded bytes, taken in order (10_state.md section 5, 20_memory.md R52 (b)). -/
def Obligations.BlockChangesOnlyByPlaintextCompletion : Prop :=
  ∀ s t : State, s.rst = none → step s = .next t →
    t.block = s.block ∨
    ∃ c rest r, s.rx = c :: rest ∧ classify c = .term ∧ s.st = .receivingPlaintext ∧ s.ptr = 32 ∧
      hexDecode s.buf 32 = some r ∧ r.length = 16 ∧ (blockOfBytes r).toList = r ∧
      t.block = Config.enc s.ek (blockOfBytes r)

/-- A discard, for any of its three reasons, leaves what `'x'` would have left, and no event (60_exceptions.md R204,
R205, the spec's decisions D8, D9, D17).  The trace, which names the condition, is the model's record (log entry 23). -/
def Obligations.DiscardLeavesWhatAbortLeaves : Prop :=
  ∀ (s t x : State) (i : Instr), s.nibbles = [] →
    ((∃ c, i = .dataReceivingKeyFull c ∨ i = .dataReceivingPlaintextFull c) ∨
     ((i = .termLfReceivingKey ∨ i = .termCrReceivingKey) ∧
        (s.ptr ≠ keyDigits s.cfg ∨ hexDecode s.buf s.ptr = none)) ∨
     ((i = .termLfReceivingPlaintext ∨ i = .termCrReceivingPlaintext) ∧
        (s.ptr ≠ 32 ∨ hexDecode s.buf 32 = none))) →
    exec i s = .next t → exec .cmdX s = .next x →
      { t with trace := [] } = { x with trace := [] } ∧ t.events = x.events ∧ t.events = s.events

/-! ## Reset -/

/-- Reset of any build: the values of the reset table and exactly the two Engine calls as events (10_state.md R35,
70_reset_and_hazards.md R230, the spec's decisions D10, D11).  What `block` holds is left out: log entry 6. -/
def Obligations.ResetEstablishesTheTable : Prop :=
  ∀ cfg : Config,
    (State.resetOf cfg).cfg = cfg ∧ (State.resetOf cfg).st = .idle ∧ (State.resetOf cfg).ptr = 0 ∧
    (State.resetOf cfg).key = cfg.defaultKey ∧ (State.resetOf cfg).ek = cfg.defaultKey ∧
    (State.resetOf cfg).trig = false ∧ (State.resetOf cfg).cal = cfg.cal.nominalCal ∧
    (State.resetOf cfg).events = [.engInit, .engSetKey cfg.defaultKey] ∧
    State.reset = State.resetOf Config.build

/-- A reset between two steps: the reset values again, from any state, with the two Engine calls as its only events; the
Block is not written and the Transport keeps its characters (70_reset_and_hazards.md R230, R231, the spec's decisions
D10, D11, D21; log entry 12). -/
def Obligations.ResetBetweenStepsRestoresTheResetValues : Prop :=
  ∀ s : State, legal s.cfg = true → s.rst = some 0 →
    ∃ t, step s = .next t ∧
      t = { s with
        st := .idle, buf := [], key := s.cfg.defaultKey, ek := s.cfg.defaultKey, trig := false
        cal := s.cfg.cal.nominalCal, rst := none, nibbles := [], trace := s.trace ++ resetActions s.cfg } ∧
      t.events = s.events ++ [.engInit, .engSetKey s.cfg.defaultKey] ∧ SameStore .block s t

/-- A reset inside a step: the first `k` actions of the turn have happened and their effects stay, the rest never do; then
the reset values hold, and what reset does not write (block, the characters and draws still to come) is as those `k`
actions left it (70_reset_and_hazards.md R231, the spec's decision D21; where a reset can land is the model's, log entry
11, and what reset leaves alone log entry 12). -/
def Obligations.ResetInsideAStepAbandonsIt : Prop :=
  ∀ (s : State) (k : Nat), legal s.cfg = true → s.rst = some k →
    ∃ (t u : State) (done : List Action), step s = .next t ∧ serve s = .next u ∧
      done = (u.trace.drop s.trace.length).take k ∧
      t = { s.perform done with
        st := .idle, buf := [], key := s.cfg.defaultKey, ek := s.cfg.defaultKey, trig := false
        cal := s.cfg.cal.nominalCal, rst := none, nibbles := []
        trace := s.trace ++ done ++ resetActions s.cfg } ∧
      t.cfg = s.cfg ∧ t.block = (s.perform done).block ∧ t.rx = (s.perform done).rx ∧
      t.rnd = (s.perform done).rnd ∧ t.draws = (s.perform done).draws ∧
      t.events = s.events ++ done.filterMap eventOf ++ [.engInit, .engSetKey s.cfg.defaultKey]

/-! ## Invariants -/

/-- Reset of a legal build meets the protocol invariant (41_protocol_fsm.md R136). -/
def Obligations.ResetMeetsTheProtocolInvariant : Prop :=
  ∀ cfg : Config, legal cfg = true → ProtocolInv (State.resetOf cfg)

/-- Every step keeps the protocol invariant, reset steps too: the cursor in range, Idle with cursor 0, the trigger low,
Key and Engine key equal, the calibration nominal, only DATA in the buffer (41_protocol_fsm.md R136, an inference the
spec marks as its own). -/
def Obligations.StepKeepsTheProtocolInvariant : Prop :=
  ∀ s t : State, ProtocolInv s → step s = .next t → ProtocolInv t

/-- Every step keeps the canonical form of the stores (20_memory.md section 1). -/
def Obligations.StepKeepsTheStoresWellFormed : Prop :=
  ∀ s t : State, Memory.wf s = true → step s = .next t → Memory.wf t = true

/-- Trigger bracketing holds after reset and every step keeps it: each rise of the line, in everything the block ever
did, is followed at once by one encryption and that at once by the fall, with no event, codec call or write between
(42_trigger_controller.md R167).  Steps that a reset cuts are left out: there the line falls by the reset (R231). -/
def Obligations.StepKeepsTheTriggerBracketed : Prop :=
  (∀ cfg : Config, Bracketed (State.resetOf cfg).trace = true) ∧
  ∀ s t : State, NoResetInside s → Bracketed s.trace = true → step s = .next t →
    Bracketed t.trace = true ∧ (s.rst = none → t.rst = none)

/-- With steps that a reset cuts included: after every step the bracket is closed, and inside it there was never anything
but the encryption, the fall, or the reset that abandoned it (42_trigger_controller.md R167, 70_reset_and_hazards.md
R231, the spec's decision D21; where a reset can land is the model's, log entry 11). -/
def Obligations.EveryStepEndsOutsideTheBracket : Prop :=
  (∀ cfg : Config, bracketPhase (State.resetOf cfg).trace .outside = some .outside) ∧
  ∀ s t : State, bracketPhase s.trace .outside = some .outside → step s = .next t →
    bracketPhase t.trace .outside = some .outside

/-- Rises, falls, encryptions and responses stay equally many (42_trigger_controller.md R168, an inference the spec marks
as its own).  Steps that a reset cuts are left out. -/
def Obligations.StepKeepsThePulsesBalanced : Prop :=
  (∀ cfg : Config, PulsesBalanced (State.resetOf cfg).events) ∧
  ∀ s t : State, NoResetInside s → PulsesBalanced s.events → step s = .next t → PulsesBalanced t.events

/-! ## Whole commands -/

/-- Payload characters that fit accumulate, the k-th at buf[k], and the command stays pending (41_protocol_fsm.md R125,
R128, R139; 20_memory.md R52 (a)). -/
def Obligations.FittingPayloadAccumulates : Prop :=
  ∀ (s : State) (payload rest : List Byte), legal s.cfg = true → s.rst = none → s.st ≠ .idle →
    (∀ c ∈ payload, classify c = .data) → s.ptr + payload.length ≤ bufLen s.cfg → s.rx = payload ++ rest →
      ∃ t : State, Sys2Proof.core.run payload.length s = .next t ∧
        t.buf = s.buf ++ payload ∧ t.st = s.st ∧ t.rx = rest ∧ t.key = s.key ∧ t.ek = s.ek ∧ t.block = s.block ∧
        t.trig = s.trig ∧ t.cal = s.cal ∧ t.rst = none ∧ t.cfg = s.cfg ∧
        t.events = s.events ++ payload.map .rx

/-- A whole key command, from any state: after 'k', 2 × KEY_LENGTH hex digits and a terminator the Key and the Engine's
key are the decoded bytes, the block is in Idle, and beside the received characters the one event is `EngSetKey`
(30_encoding.md R75; 41_protocol_fsm.md R122, R125, R132). -/
def Obligations.KeyCommandRekeysFromAnyState : Prop :=
  ∀ (s : State) (payload rest : List Byte) (e : Byte), legal s.cfg = true → s.rst = none →
    payload.length = 2 * s.cfg.keyLength → (∀ c ∈ payload, isHexDigit c = true) → classify e = .term →
    s.rx = charK :: payload ++ e :: rest →
      ∃ (t : State) (r : List Byte), hexDecode payload payload.length = some r ∧
        Sys2Proof.core.run (payload.length + 2) s = .next t ∧
        t.key = r ∧ t.ek = r ∧ t.st = .idle ∧ t.ptr = 0 ∧ t.rx = rest ∧ t.block = s.block ∧
        t.events = s.events ++ .rx charK :: payload.map .rx ++ [.rx e, .engSetKey r]

/-- A whole plaintext command, from any state of a build whose buffer holds 32 characters: after 'p', 32 hex digits and a
terminator the block of the 16 decoded bytes has been encrypted and its response sent (30_encoding.md R75, R76;
41_protocol_fsm.md R123, R128, R133; 20_memory.md R52). -/
def Obligations.PlaintextCommandAnswersFromAnyState : Prop :=
  ∀ (s : State) (payload rest : List Byte) (e : Byte), legal s.cfg = true → s.rst = none → 8 ≤ s.cfg.keyLength →
    payload.length = 32 → (∀ c ∈ payload, isHexDigit c = true) → classify e = .term →
    s.rx = charP :: payload ++ e :: rest →
      ∃ (t : State) (r : List Byte), hexDecode payload 32 = some r ∧ r.length = 16 ∧ (blockOfBytes r).toList = r ∧
        Sys2Proof.core.run 34 s = .next t ∧
        t.block = Config.enc s.ek (blockOfBytes r) ∧ t.sent = s.sent ++ responseFrame t.block ∧
        t.st = .idle ∧ t.ptr = 0 ∧ t.rx = rest ∧ t.key = s.key ∧ t.ek = s.ek ∧ t.trig = false

/-- A payload of more than BUFLEN characters, after 'k' or 'p', from any state: the command is gone, Idle, nothing sent,
no key changed, no block written (60_exceptions.md R201; on the key path the spec's decision D5). -/
def Obligations.OverlongPayloadAbortsTheCommand : Prop :=
  ∀ (s : State) (payload rest : List Byte) (k : Byte), legal s.cfg = true → s.rst = none → (k = charK ∨ k = charP) →
    payload.length = bufLen s.cfg + 1 → (∀ c ∈ payload, classify c = .data) → s.rx = k :: payload ++ rest →
      ∃ t : State, Sys2Proof.core.run (payload.length + 1) s = .next t ∧
        t.st = .idle ∧ t.ptr = 0 ∧ t.rx = rest ∧ t.key = s.key ∧ t.ek = s.ek ∧ t.block = s.block ∧
        t.events = s.events ++ .rx k :: payload.map .rx

/-! ## The byte stores -/

/-- `MemRead` inside a store returns its n bytes, lowest index first, where all have a value; where one is an element of BUF
at or past the cursor it stops there; past the store's end, which the spec does not define, it faults (20_memory.md R51,
10_state.md R26; the faults are the model's, log entries 5 and 26). -/
def Obligations.MemReadReturnsTheBytesLowestFirst : Prop :=
  ∀ (s : State) (sp : Space) (addr n : Nat), Memory.wf s = true →
    (addr + n ≤ s.size sp → (sp = .buf → addr + n ≤ s.ptr) →
      ∃ l, s.memRead sp addr n = .ok l ∧ l.length = n ∧
        ∀ j (h : j < l.length), s.readByte sp (addr + j) = .ok l[j]) ∧
    (addr + n ≤ s.size sp → sp = .buf → s.ptr < addr + n → 0 < n →
      s.memRead sp addr n = .error (.undefinedElement (max addr s.ptr))) ∧
    (¬ addr + n ≤ s.size sp → s.memRead sp addr n = .error (.outOfStore sp (max addr (s.size sp))))

/-- `MemWrite` inside a store writes v[0] at addr up to v[n - 1] at addr + n - 1, and nothing else: the written bytes read
back (of BUF those below the cursor; the others have no value), every other byte of every store reads as before, the
cursor stays, and so does every other field.  Past the store's end, which the spec does not define, it faults
(20_memory.md R51, R55, 10_state.md R26; the fault is the model's, log entry 26). -/
def Obligations.MemWriteWritesExactlyItsBytes : Prop :=
  ∀ (s : State) (sp : Space) (addr n : Nat) (v : Vector Byte n), Memory.wf s = true →
    (addr + n ≤ s.size sp →
      ∃ t, s.memWrite sp addr n v = .ok t ∧
        (∀ j (h : j < n), (sp = .buf → addr + j < s.ptr) → t.readByte sp (addr + j) = .ok v[j]) ∧
        (∀ sp' i, ¬ (sp' = sp ∧ addr ≤ i ∧ i < addr + n) → t.readByte sp' i = s.readByte sp' i) ∧
        t.ptr = s.ptr ∧ t.key.length = s.key.length ∧
        t = { s with buf := t.buf, key := t.key, block := t.block }) ∧
    (¬ addr + n ≤ s.size sp → s.memWrite sp addr n v = .error (.outOfStore sp (max addr (s.size sp))))

/-- The machine's accesses are reads and writes of this kind, all inside their store: an append is the write of one
character at the old cursor, with the cursor advanced over it; key completion writes KEY, plaintext completion and the
Engine write BLOCK, each whole from index 0; what completions read is BUF up to the cursor, and `setKey`, `encryptBlock`
and `encode` read KEY and BLOCK whole (20_memory.md R50, R51, R54). -/
def Obligations.StoreAccessesAreReadsAndWrites : Prop :=
  ∀ s : State, Memory.wf s = true →
    (∀ c x : Byte, s.ptr < bufLen s.cfg →
      State.memWrite { s with buf := s.buf ++ [x] } .buf s.ptr 1 #v[c] = .ok (s.apply (.append c))) ∧
    (∀ k : Vector Byte s.cfg.keyLength,
      s.memWrite .key 0 s.cfg.keyLength k = .ok (s.apply (.writeKey k.toList))) ∧
    (∀ b b' : Block, s.memWrite .block 0 16 b' = .ok (s.apply (.writeBlock b')) ∧
      s.memWrite .block 0 16 b' = .ok (s.apply (.encrypt b b'))) ∧
    s.memRead .buf 0 s.ptr = .ok s.buf ∧ s.memRead .key 0 s.cfg.keyLength = .ok s.key ∧
    s.memRead .block 0 16 = .ok s.block.toList
end

