-- ==== Sys2Proof/Laws/Codec.lean ====
section
/-! SUPPORT. The digit tables and the two codec functions, one step at a time. -/

namespace Sys2Proof.Machine

theorem hexVal_hexChar : ∀ n : Nibble, hexVal (hexChar n) = some n := by decide

theorem isUpperHex_hexChar : ∀ n : Nibble, isUpperHex (hexChar n) = true := by decide

theorem joinNibbles_split : ∀ v : Byte, joinNibbles (highNibble v) (lowNibble v) = v := by decide

theorem highNibble_join : ∀ h l : Nibble, highNibble (joinNibbles h l) = h := by decide

theorem lowNibble_join : ∀ h l : Nibble, lowNibble (joinNibbles h l) = l := by decide

theorem hexVal_data : ∀ c : Byte, hexVal c ≠ none → classify c = .data := by decide

theorem hexChar_hexVal : ∀ c : Byte, ∀ n : Nibble, hexVal c = some n → hexChar n = upperCase c := by decide

theorem upperCase_eq_self : ∀ c : Byte, upperCase c = c ↔ isLowerHex c = false := by decide

theorem upperHex_ne_frame : ∀ c : Byte, isUpperHex c = true → c ≠ charR ∧ c ≠ charLf := by decide

theorem encodeByte_upper (v : Byte) : ∀ c ∈ encodeByte v, isUpperHex c = true := by
  simp [encodeByte, isUpperHex_hexChar]

theorem hexEncode_upper (bytes : List Byte) (n : Nat) : ∀ c ∈ hexEncode bytes n, isUpperHex c = true := by
  intro c hc
  obtain ⟨v, -, hv⟩ := List.mem_flatMap.mp hc
  exact encodeByte_upper v c hv

theorem flatMap_encodeByte_length (bytes : List Byte) : (bytes.flatMap encodeByte).length = 2 * bytes.length := by
  induction bytes with
  | nil => rfl
  | cons v vs ih => simp [List.flatMap_cons, encodeByte] at *; omega

@[simp] theorem packDigits_nil : packDigits [] = some [] := by simp [packDigits]

/-- The pairing of two digits and a rest, without the pattern match. -/
theorem packDigits_cons (h l : Option Nibble) (rest : List (Option Nibble)) :
    packDigits (h :: l :: rest) =
      h.bind fun hn => l.bind fun ln => (packDigits rest).map (joinNibbles hn ln :: ·) := by
  cases h <;> cases l <;> cases hr : packDigits rest <;> simp [packDigits, hr]

/-- What a successful pairing says of its first two digits and its first byte. -/
theorem packDigits_cons_some {h l : Option Nibble} {rest : List (Option Nibble)} {bytes : List Byte}
    (hp : packDigits (h :: l :: rest) = some bytes) :
    ∃ hn ln bs, h = some hn ∧ l = some ln ∧ packDigits rest = some bs ∧ bytes = joinNibbles hn ln :: bs := by
  rw [packDigits_cons] at hp
  cases h <;> cases l <;> cases hr : packDigits rest <;> simp_all

/-- A pairing fails at a digit with no value. -/
theorem packDigits_none_cons_iff (h l : Option Nibble) (rest : List (Option Nibble)) :
    packDigits (h :: l :: rest) = none ↔ h = none ∨ l = none ∨ packDigits rest = none := by
  rw [packDigits_cons]; cases h <;> cases l <;> cases packDigits rest <;> simp

/-- Pairs of digits make half as many bytes. -/
theorem packDigits_length : ∀ {vs : List (Option Nibble)} {bytes : List Byte},
    packDigits vs = some bytes → vs.length = 2 * bytes.length
  | [], bytes, h => by simp [packDigits] at h; simp [← h]
  | [_], bytes, h => by simp [packDigits] at h
  | h :: l :: rest, bytes, hp => by
    obtain ⟨hn, ln, bs, -, -, hr, rfl⟩ := packDigits_cons_some hp
    have := packDigits_length hr
    simp; omega

/-- The Block of 16 decoded bytes holds them in order (20_memory.md R52 (b)). -/
theorem blockOfBytes_toList {bytes : List Byte} (h : bytes.length = 16) : (blockOfBytes bytes).toList = bytes := by
  apply List.ext_getElem
  · simp [h]
  · intro i h₁ h₂
    simp [blockOfBytes, List.getD_eq_getElem?_getD, h₂]

/-- A decoded plaintext payload has 16 bytes, and the Block made of them holds them in order (20_memory.md R52 (b)). -/
theorem block_of_payload {payload bytes : List Byte} (h : payload.length = blockDigits)
    (hd : packDigits (payload.map hexVal) = some bytes) :
    bytes.length = 16 ∧ (blockOfBytes bytes).toList = bytes := by
  have hl := packDigits_length hd
  rw [List.length_map, h, blockDigits] at hl
  exact ⟨by omega, blockOfBytes_toList (by omega)⟩

end Sys2Proof.Machine
end

