-- ==== Sys2Proof/Laws/State.lean ====
section
/-! SUPPORT. What one action, and a list of actions, does to each field of the state. -/

namespace Sys2Proof.Machine

/-- The cursor is how many characters the Capture Buffer holds: the one spelling lemmas use. -/
@[simp] theorem ptr_eq (s : State) : s.ptr = s.buf.length := rfl

@[simp] theorem act_cfg (s : State) (a : Action) : (s.act a).cfg = s.cfg := by cases a <;> rfl

@[simp] theorem act_trace (s : State) (a : Action) : (s.act a).trace = s.trace ++ [a] := rfl

@[simp] theorem act_st (s : State) (a : Action) :
    (s.act a).st = match a with | .goto st => st | _ => s.st := by cases a <;> rfl

@[simp] theorem act_buf (s : State) (a : Action) :
    (s.act a).buf = match a with | .rewind => [] | .append c => s.buf ++ [c] | _ => s.buf := by cases a <;> rfl

@[simp] theorem act_key (s : State) (a : Action) :
    (s.act a).key = match a with | .writeKey k => k | _ => s.key := by cases a <;> rfl

@[simp] theorem act_block (s : State) (a : Action) :
    (s.act a).block = match a with | .writeBlock b => b | .encrypt _ b' => b' | _ => s.block := by cases a <;> rfl

@[simp] theorem act_trig (s : State) (a : Action) :
    (s.act a).trig = match a with | .drive high => high | .trigLow => false | _ => s.trig := by cases a <;> rfl

@[simp] theorem act_ek (s : State) (a : Action) :
    (s.act a).ek = match a with | .engSetKey k => k | _ => s.ek := by cases a <;> rfl

@[simp] theorem act_cal (s : State) (a : Action) :
    (s.act a).cal = match a with | .writeCal v => v | .platformCal v => v | _ => s.cal := by cases a <;> rfl

@[simp] theorem act_rx (s : State) (a : Action) :
    (s.act a).rx = match a with | .rx _ => s.rx.tail | _ => s.rx := by cases a <;> rfl

@[simp] theorem act_rnd (s : State) (a : Action) :
    (s.act a).rnd = match a with | .sample _ => s.rnd.tail | _ => s.rnd := by cases a <;> rfl

@[simp] theorem act_draws (s : State) (a : Action) :
    (s.act a).draws = match a with | .sample _ => s.draws + 1 | _ => s.draws := by cases a <;> rfl

@[simp] theorem act_rst (s : State) (a : Action) :
    (s.act a).rst = match a with | .abandon => none | _ => s.rst := by cases a <;> rfl

@[simp] theorem act_nibbles (s : State) (a : Action) :
    (s.act a).nibbles =
      match a with
      | .decodeCall => [] | .decodeReturn => [] | .abandon => []
      | .digit v => s.nibbles ++ [v]
      | _ => s.nibbles := by cases a <;> rfl

@[simp] theorem perform_nil (s : State) : s.perform [] = s := rfl

@[simp] theorem perform_cons (s : State) (a : Action) (as : List Action) :
    s.perform (a :: as) = (s.act a).perform as := rfl

theorem perform_append (s : State) (as bs : List Action) :
    s.perform (as ++ bs) = (s.perform as).perform bs := by
  induction as generalizing s with
  | nil => rfl
  | cons a as ih => exact ih (s.act a)

/-- One action is a list of one. -/
theorem act_eq_perform (s : State) (a : Action) : s.act a = s.perform [a] := rfl

@[simp] theorem perform_trace (s : State) (as : List Action) : (s.perform as).trace = s.trace ++ as := by
  induction as generalizing s with
  | nil => simp
  | cons a as ih => simp [ih]

@[simp] theorem perform_cfg (s : State) (as : List Action) : (s.perform as).cfg = s.cfg := by
  induction as generalizing s with
  | nil => rfl
  | cons a as ih => simp [ih]

@[simp] theorem perform_events (s : State) (as : List Action) :
    (s.perform as).events = s.events ++ as.filterMap eventOf := by
  simp [State.events]

/-- Two states that agree on every field are equal. -/
theorem state_ext {s t : State} (h1 : s.cfg = t.cfg) (h2 : s.st = t.st) (h3 : s.buf = t.buf) (h4 : s.key = t.key)
    (h5 : s.block = t.block) (h6 : s.trig = t.trig) (h7 : s.ek = t.ek) (h8 : s.cal = t.cal) (h9 : s.rx = t.rx)
    (h10 : s.rnd = t.rnd) (h11 : s.rst = t.rst) (h12 : s.draws = t.draws) (h13 : s.nibbles = t.nibbles)
    (h14 : s.trace = t.trace) : s = t := by
  cases s; cases t; simp_all

end Sys2Proof.Machine
end

