-- ==== Sys2Proof/Laws/Ops.lean ====
section
/-! SUPPORT. What each shared operation leaves, said once as the whole state it leaves. -/

namespace Sys2Proof.Machine

theorem discard_eq (s : State) (cond : Condition) :
    s.discard cond =
      { s with st := .idle, buf := [], trace := s.trace ++ [.raise cond, .rewind, .goto .idle] } := by
  apply state_ext <;> simp [State.discard]

theorem appendChar_room {s : State} (st : Protocol) (c : Byte) (h : s.ptr < bufLen s.cfg) :
    s.appendChar st c =
      .next { s with st := st, buf := s.buf ++ [c], trace := s.trace ++ [.append c, .goto st] } := by
  rw [State.appendChar, if_pos (by simpa [State.hasRoom] using h)]
  congr 1
  apply state_ext <;> simp

theorem appendChar_full {s : State} (st : Protocol) (c : Byte) (h : ¬ s.ptr < bufLen s.cfg) :
    s.appendChar st c = .fault (.outOfStore .buf s.ptr) := by
  rw [State.appendChar, if_neg (by simpa [State.hasRoom] using h)]

/-- Actions that each only add a digit. -/
theorem perform_digits (s : State) (vs : List (Option Nibble)) :
    s.perform (vs.map .digit) =
      { s with nibbles := s.nibbles ++ vs, trace := s.trace ++ vs.map .digit } := by
  induction vs generalizing s with
  | nil => simp
  | cons v vs ih =>
    rw [List.map_cons, perform_cons, ih]
    apply state_ext <;> simp

theorem decodePayload_eq (s : State) :
    s.decodePayload =
      { s with
        nibbles := s.buf.map hexVal
        trace := s.trace ++ .decodeCall :: s.buf.map fun c => .digit (hexVal c) } := by
  have h : (s.buf.map fun c => Action.digit (hexVal c)) = (s.buf.map hexVal).map .digit := by simp
  rw [State.decodePayload, perform_cons, h, perform_digits]
  apply state_ext <;> simp

/-- Actions that each only transmit a character. -/
theorem perform_tx (s : State) (cs : List Byte) :
    s.perform (cs.map .tx) = { s with trace := s.trace ++ cs.map .tx } := by
  induction cs generalizing s with
  | nil => simp
  | cons c cs ih =>
    rw [List.map_cons, perform_cons, ih]
    apply state_ext <;> simp

/-- Sending characters one by one is performing their actions. -/
theorem foldl_writeChar (s : State) (cs : List Byte) : cs.foldl State.writeChar s = s.perform (cs.map .tx) := by
  induction cs generalizing s with
  | nil => rfl
  | cons c cs ih => rw [List.foldl_cons, ih, List.map_cons, perform_cons]; rfl

theorem emitResponse_eq (s : State) (out : List Byte) :
    s.emitResponse out = { s with trace := s.trace ++ (charR :: out ++ [charLf]).map .tx } := by
  rw [State.emitResponse, perform_tx]
  apply state_ext <;> simp [State.writeChar]

theorem respond_eq (s : State) :
    s.respond =
      { s with
        st := .idle
        buf := []
        trace := s.trace ++ .encodeCall :: (charR :: hexEncode s.block.toList 16 ++ [charLf]).map .tx
          ++ [.rewind, .goto .idle] } := by
  rw [State.respond, emitResponse_eq]
  apply state_ext <;> simp

theorem bracket_eq (s : State) :
    s.bracket =
      { s with
        block := Config.enc s.ek s.block
        trig := false
        trace := s.trace ++ [.drive true, .encrypt s.block (Config.enc s.ek s.block), .drive false] } := by
  apply state_ext <;> simp [State.bracket, State.encryptBlock]

theorem jitterBefore_eq (s : State) :
    s.jitterBefore =
      { s with
        cal := s.nextDraw
        rnd := s.rnd.tail
        draws := s.draws + 1
        trace := s.trace ++
          [.delay .settlePre, .sample s.nextDraw, .writeCal s.nextDraw, .delay .settlePost] } := by
  apply state_ext <;> simp [State.jitterBefore]

theorem jitterAfter_eq (s : State) :
    s.jitterAfter =
      { s with
        cal := s.cfg.cal.nominalCal
        trace := s.trace ++ [.writeCal s.cfg.cal.nominalCal, .delay .restore] } := by
  apply state_ext <;> simp [State.jitterAfter]

theorem triggerSequence_off {s : State} (h : s.cfg.jitter = .off) : s.triggerSequence = s.bracket := by
  simp [State.triggerSequence, State.jitterOn, h]

theorem triggerSequence_on {s : State} (h : s.cfg.jitter ≠ .off) :
    s.triggerSequence =
      { s with
        block := Config.enc s.ek s.block
        trig := false
        cal := s.cfg.cal.nominalCal
        rnd := s.rnd.tail
        draws := s.draws + 1
        trace := s.trace ++
          [.delay .settlePre, .sample s.nextDraw, .writeCal s.nextDraw, .delay .settlePost,
           .drive true, .encrypt s.block (Config.enc s.ek s.block), .drive false,
           .writeCal s.cfg.cal.nominalCal, .delay .restore] } := by
  rw [State.triggerSequence, if_pos (by simpa [State.jitterOn] using h), jitterAfter_eq, bracket_eq, jitterBefore_eq]
  apply state_ext <;> simp

theorem keyComplete_badLength {s : State} (h : s.ptr ≠ keyDigits s.cfg) : s.keyComplete = s.discard .badLength := by
  rw [State.keyComplete, if_neg (by simpa [State.keyLengthOk] using h)]

theorem keyComplete_invalid {s : State} (h : s.ptr = keyDigits s.cfg)
    (hd : packDigits (s.buf.map hexVal) = none) :
    s.keyComplete = (s.decodePayload.act .decodeReturn).discard .invalidHexDigit := by
  rw [State.keyComplete, if_pos (by simpa [State.keyLengthOk] using h), decodePayload_eq]
  simp [hd]

theorem keyComplete_ok {s : State} {r : List Byte} (h : s.ptr = keyDigits s.cfg)
    (hd : packDigits (s.buf.map hexVal) = some r) :
    s.keyComplete =
      { s with
        key := r
        ek := r
        st := .idle
        buf := []
        nibbles := []
        trace := s.trace ++ .decodeCall :: (s.buf.map fun c => .digit (hexVal c)) ++
          [.decodeReturn, .writeKey r, .engSetKey r, .rewind, .goto .idle] } := by
  rw [State.keyComplete, if_pos (by simpa [State.keyLengthOk] using h), decodePayload_eq]
  simp only [hd]
  apply state_ext <;> simp

theorem plaintextComplete_badLength {s : State} (h : s.ptr ≠ blockDigits) :
    s.plaintextComplete = s.discard .badLength := by
  rw [State.plaintextComplete, if_neg (by simpa [State.blockLengthOk] using h)]

theorem plaintextComplete_invalid {s : State} (h : s.ptr = blockDigits)
    (hd : packDigits (s.buf.map hexVal) = none) :
    s.plaintextComplete = (s.decodePayload.act .decodeReturn).discard .invalidHexDigit := by
  rw [State.plaintextComplete, if_pos (by simpa [State.blockLengthOk] using h), decodePayload_eq]
  simp [hd]

theorem plaintextComplete_ok {s : State} {r : List Byte} (h : s.ptr = blockDigits)
    (hd : packDigits (s.buf.map hexVal) = some r) :
    s.plaintextComplete =
      ((s.decodePayload.perform [.decodeReturn, .writeBlock (blockOfBytes r)]).triggerSequence).respond := by
  rw [State.plaintextComplete, if_pos (by simpa [State.blockLengthOk] using h)]
  simp [decodePayload_eq, hd]

theorem resetNow_eq (s : State) :
    s.resetNow =
      { s with
        st := .idle
        buf := []
        key := s.cfg.defaultKey
        ek := s.cfg.defaultKey
        trig := false
        cal := s.cfg.cal.nominalCal
        rst := none
        nibbles := []
        trace := s.trace ++ resetActions s.cfg } := by
  apply state_ext <;> simp [State.resetNow, resetActions]

end Sys2Proof.Machine
end

