-- ==== Sys2Proof/Laws/Plaintext.lean ====
section
/-! SUPPORT. What a successful plaintext completion leaves, without and with the jitter option. -/

namespace Sys2Proof.Machine

/-- What `TriggerSequence` finds: the payload decoded, the block written (41_protocol_fsm.md R133). -/
theorem decoded_eq (s : State) (b : Block) :
    s.decodePayload.perform [.decodeReturn, .writeBlock b] =
      { s with block := b, nibbles := [], trace := s.trace ++ decodeActions s.buf ++ [.writeBlock b] } := by
  rw [decodePayload_eq]
  apply state_ext <;> simp [decodeActions]

theorem plaintextComplete_off {s : State} {r : List Byte} (h : s.ptr = blockDigits)
    (hd : packDigits (s.buf.map hexVal) = some r) (hj : s.cfg.jitter = .off) :
    s.plaintextComplete =
      { s with
        st := .idle
        buf := []
        block := Config.enc s.ek (blockOfBytes r)
        trig := false
        nibbles := []
        trace := s.trace ++ decodeActions s.buf ++ [.writeBlock (blockOfBytes r)]
          ++ bracketActions s.ek (blockOfBytes r) ++ respondActions (Config.enc s.ek (blockOfBytes r)) } := by
  rw [plaintextComplete_ok h hd, decoded_eq, triggerSequence_off (by exact hj), bracket_eq, respond_eq]
  apply state_ext <;> simp [bracketActions, respondActions, responseFrame]

theorem plaintextComplete_on {s : State} {r : List Byte} (h : s.ptr = blockDigits)
    (hd : packDigits (s.buf.map hexVal) = some r) (hj : s.cfg.jitter ≠ .off) :
    s.plaintextComplete =
      { s with
        st := .idle
        buf := []
        block := Config.enc s.ek (blockOfBytes r)
        trig := false
        cal := s.cfg.cal.nominalCal
        rnd := s.rnd.tail
        draws := s.draws + 1
        nibbles := []
        trace := s.trace ++ decodeActions s.buf ++ [.writeBlock (blockOfBytes r)]
          ++ [.delay .settlePre, .sample s.nextDraw, .writeCal s.nextDraw, .delay .settlePost]
          ++ bracketActions s.ek (blockOfBytes r)
          ++ [.writeCal s.cfg.cal.nominalCal, .delay .restore]
          ++ respondActions (Config.enc s.ek (blockOfBytes r)) } := by
  rw [plaintextComplete_ok h hd, decoded_eq, triggerSequence_on (by exact hj), respond_eq]
  apply state_ext <;> simp [bracketActions, respondActions, responseFrame, State.nextDraw]

end Sys2Proof.Machine
end

