-- ==== Sys2Proof/Laws/Events.lean ====
section
/-! SUPPORT. What an observer sees of the actions an operation performs (spec/00_scope.md R16). -/

namespace Sys2Proof.Machine

/-- A longer trace shows the events of what was added. -/
theorem events_eq {s t : State} {as : List Action} (h : t.trace = s.trace ++ as) :
    t.events = s.events ++ as.filterMap eventOf := by
  simp [State.events, h]

/-- A longer trace has sent the characters of what was added. -/
theorem sent_eq {s t : State} {as : List Action} (h : t.trace = s.trace ++ as) :
    t.sent = s.sent ++ (as.filterMap eventOf).filterMap Event.sent? := by
  simp [State.sent, events_eq h]

@[simp] theorem decodeActions_events (p : List Byte) : (decodeActions p).filterMap eventOf = [] := by
  induction p with
  | nil => rfl
  | cons c p ih => simpa [decodeActions, eventOf] using ih

theorem tx_events (cs : List Byte) : (cs.map Action.tx).filterMap eventOf = cs.map .tx := by
  induction cs with
  | nil => rfl
  | cons c cs ih => simpa [eventOf] using ih

@[simp] theorem bracketActions_events (ek : List Byte) (b : Block) :
    (bracketActions ek b).filterMap eventOf = [.trig true, .engEncrypt b (Config.enc ek b), .trig false] := rfl

@[simp] theorem respondActions_events (b : Block) :
    (respondActions b).filterMap eventOf = (responseFrame b).map .tx := by
  have h : respondActions b = .encodeCall :: ((responseFrame b).map .tx ++ [.rewind, .goto .idle]) := rfl
  rw [h, List.filterMap_cons, List.filterMap_append, tx_events]
  simp [eventOf]

@[simp] theorem tx_sent (cs : List Byte) : cs.filterMap (Event.sent? ∘ Event.tx) = cs :=
  (List.filterMap_congr fun _ _ => rfl).trans (List.filterMap_some)

@[simp] theorem tx_received (cs : List Byte) : cs.filterMap (Event.received? ∘ Event.tx) = [] := by
  simp [Event.received?]

theorem responseFrame_length (b : Block) : (responseFrame b).length = 34 := by
  have h : (hexEncode b.toList 16).length = 32 := by
    rw [hexEncode, List.length_flatMap]
    simp [encodeByte]
  simp [responseFrame, h]

/-- Decoding the whole payload is pairing its digits. -/
theorem hexDecode_payload (s : State) : hexDecode s.buf s.ptr = packDigits (s.buf.map hexVal) := by
  rw [hexDecode, List.take_length]

end Sys2Proof.Machine
end

