-- ==== Sys2Proof/Laws/Memory.lean ====
section
/-! SUPPORT. The byte stores: what a write leaves readable, and that every operation that writes one keeps their
canonical form. -/

namespace Sys2Proof.Machine

theorem wf_iff (s : State) :
    Memory.wf s = true ↔ s.buf.length ≤ bufLen s.cfg ∧ s.key.length = s.cfg.keyLength := by
  simp [Memory.wf]

theorem wf_resetOf {cfg : Config} (h : legal cfg = true) : Memory.wf (State.resetOf cfg) = true := by
  simp [legal] at h
  simp [wf_iff, State.resetOf, h.1.2]

theorem wf_rewind {s : State} (h : Memory.wf s = true) : Memory.wf (s.act .rewind) = true := by
  simp [wf_iff] at *; exact h.2

theorem wf_append {s : State} (c : Byte) (h : Memory.wf s = true) (hroom : s.ptr < bufLen s.cfg) :
    Memory.wf (s.act (.append c)) = true := by
  simp [wf_iff] at *; exact ⟨by omega, h.2⟩

theorem wf_writeKey {s : State} {k : List Byte} (h : Memory.wf s = true) (hk : k.length = s.cfg.keyLength) :
    Memory.wf (s.act (.writeKey k)) = true := by
  simp [wf_iff] at *; exact ⟨h.1, hk⟩

theorem wf_writeBlock {s : State} (b : Block) (h : Memory.wf s = true) : Memory.wf (s.act (.writeBlock b)) = true := by
  simpa [wf_iff] using h

theorem wf_encrypt {s : State} (b b' : Block) (h : Memory.wf s = true) : Memory.wf (s.act (.encrypt b b')) = true := by
  simpa [wf_iff] using h

theorem wf_discard {s : State} (cond : Condition) (h : Memory.wf s = true) : Memory.wf (s.discard cond) = true := by
  rw [discard_eq]; simp [wf_iff] at *; exact h.2

theorem wf_resetNow {s : State} (h : legal s.cfg = true) : Memory.wf s.resetNow = true := by
  rw [resetNow_eq]; simp [legal] at h; simp [wf_iff, h.1.2]

/-- A key payload that decodes fills KEY exactly. -/
theorem keyBytes_length {s : State} {r : List Byte} (h : s.ptr = keyDigits s.cfg)
    (hd : packDigits (s.buf.map hexVal) = some r) : r.length = s.cfg.keyLength := by
  have h1 := packDigits_length hd
  have h2 : s.buf.length = 2 * s.cfg.keyLength := h
  simp only [List.length_map] at h1
  omega

theorem wf_keyComplete {s : State} (h : Memory.wf s = true) : Memory.wf s.keyComplete = true := by
  by_cases hp : s.ptr = keyDigits s.cfg
  · cases hd : packDigits (s.buf.map hexVal) with
    | none =>
      rw [keyComplete_invalid hp hd, discard_eq, decodePayload_eq]
      simp [wf_iff] at *; exact h.2
    | some r => rw [keyComplete_ok hp hd]; simp [wf_iff, keyBytes_length hp hd]
  · rw [keyComplete_badLength hp]; exact wf_discard _ h

theorem wf_plaintextComplete {s : State} (h : Memory.wf s = true) : Memory.wf s.plaintextComplete = true := by
  by_cases hp : s.ptr = blockDigits
  · cases hd : packDigits (s.buf.map hexVal) with
    | none =>
      rw [plaintextComplete_invalid hp hd, discard_eq, decodePayload_eq]
      simp [wf_iff] at *; exact h.2
    | some r =>
      by_cases hj : s.cfg.jitter = .off
      · rw [plaintextComplete_off hp hd hj]; simp [wf_iff] at *; exact h.2
      · rw [plaintextComplete_on hp hd hj]; simp [wf_iff] at *; exact h.2
  · rw [plaintextComplete_badLength hp]; exact wf_discard _ h

@[simp] theorem bytes_buf (s : State) : s.bytes .buf = s.buf := rfl
@[simp] theorem bytes_key (s : State) : s.bytes .key = s.key := rfl
@[simp] theorem bytes_block (s : State) : s.bytes .block = s.block.toList := rfl
@[simp] theorem size_buf (s : State) : s.size .buf = bufLen s.cfg := rfl
@[simp] theorem size_key (s : State) : s.size .key = s.cfg.keyLength := rfl
@[simp] theorem size_block (s : State) : s.size .block = 16 := rfl

/-- A read depends on the store's elements and its size alone. -/
theorem readByte_congr {s t : State} {sp : Space} {i : Nat} (h : (t.bytes sp)[i]? = (s.bytes sp)[i]?)
    (hs : t.size sp = s.size sp) : t.readByte sp i = s.readByte sp i := by
  rw [State.readByte, State.readByte, h, hs]

theorem readByte_ok {s : State} {sp : Space} {i : Nat} (h : i < (s.bytes sp).length) :
    s.readByte sp i = .ok (s.bytes sp)[i] := by
  rw [State.readByte, List.getElem?_eq_getElem h]

theorem size_congr {s t : State} (h : t.cfg = s.cfg) (sp : Space) : t.size sp = s.size sp := by
  cases sp <;> simp [h]

/-- A store whose data is untouched reads as before. -/
theorem sameStore_of_bytes {s t : State} {sp : Space} (h : t.bytes sp = s.bytes sp) (hc : t.cfg = s.cfg) :
    SameStore sp s t := fun _ => readByte_congr (by rw [h]) (size_congr hc sp)

theorem sameStore_key {s t : State} (h : t.key = s.key) (hc : t.cfg = s.cfg) : SameStore .key s t :=
  sameStore_of_bytes h hc

theorem sameStore_block {s t : State} (h : t.block = s.block) (hc : t.cfg = s.cfg) : SameStore .block s t :=
  sameStore_of_bytes (by simp [h]) hc

theorem sameStore_buf {s t : State} (h : t.buf = s.buf) (hc : t.cfg = s.cfg) : SameStore .buf s t :=
  sameStore_of_bytes h hc

/-- An append is read back at the old cursor. -/
theorem readByte_append_new {s t : State} {c : Byte} (h : t.buf = s.buf ++ [c]) : t.readByte .buf s.ptr = .ok c := by
  simp [State.readByte, h]

/-- An append leaves every other element of the Capture Buffer reading as before. -/
theorem readByte_append_old {s t : State} {c : Byte} (h : t.buf = s.buf ++ [c]) (hc : t.cfg = s.cfg) {i : Nat}
    (hi : i ≠ s.ptr) : t.readByte .buf i = s.readByte .buf i := by
  unfold State.ptr at hi
  refine readByte_congr ?_ (size_congr hc _)
  rw [bytes_buf, bytes_buf, h, List.getElem?_append]
  split
  · rfl
  · rw [List.getElem?_eq_none (by simp; omega), List.getElem?_eq_none (by omega)]

/-- A run of elements that have values reads as that part of the store. -/
theorem readRun_ok (s : State) (sp : Space) :
    ∀ n i, i + n ≤ (s.bytes sp).length → s.readRun sp i n = .ok (((s.bytes sp).drop i).take n)
  | 0, i, _ => by simp [State.readRun]
  | n + 1, i, h => by
    rw [State.readRun, readByte_ok (show i < (s.bytes sp).length by omega), readRun_ok s sp n (i + 1) (by omega),
      List.drop_eq_getElem_cons (show i < (s.bytes sp).length by omega), List.take_succ_cons]

/-- A run that reaches an element without a value stops at the first such. -/
theorem readRun_undefined (s : State) (sp : Space) :
    ∀ n i, (s.bytes sp).length < i + n → i + n ≤ s.size sp → 0 < n →
      s.readRun sp i n = .error (.undefinedElement (max i (s.bytes sp).length))
  | n + 1, i, h, hs, _ => by
    rw [State.readRun]
    by_cases hi : i < (s.bytes sp).length
    · rw [readByte_ok hi, readRun_undefined s sp n (i + 1) (by omega) (by omega) (by omega)]
      simp [Nat.max_eq_right (Nat.le_of_lt hi), Nat.max_eq_right hi]
    · rw [State.readByte, List.getElem?_eq_none (by omega), if_pos (by omega), Nat.max_eq_left (by omega)]

@[simp] theorem overwrite_length (l : List Byte) (addr : Nat) (v : List Byte) :
    (overwrite l addr v).length = l.length := by
  induction v generalizing l addr with
  | nil => rfl
  | cons c v ih => simp [overwrite, ih]

/-- What a write leaves at each index: the new bytes where they fall on an element that has a value, the old elsewhere. -/
theorem overwrite_getElem? (l : List Byte) (addr : Nat) (v : List Byte) (i : Nat) :
    (overwrite l addr v)[i]? =
      if addr ≤ i ∧ i < addr + v.length ∧ i < l.length then v[i - addr]? else l[i]? := by
  induction v generalizing l addr with
  | nil => rw [overwrite, List.length_nil, Nat.add_zero, if_neg (by omega)]
  | cons c v ih =>
    rw [overwrite, ih, List.length_set, List.getElem?_set]
    by_cases hi : i < l.length
    · rcases Nat.lt_trichotomy i addr with h | h | h
      · rw [if_neg (by omega), if_neg (by omega), if_neg (by omega)]
      · subst h; simp [hi]
      · obtain ⟨k, hk⟩ : ∃ k, i - addr = k + 1 := ⟨i - addr - 1, by omega⟩
        rw [if_neg (show ¬ addr = i by omega), hk, List.getElem?_cons_succ, show i - (addr + 1) = k by omega]
        simp only [List.length_cons]
        split <;> split <;> first | rfl | omega
    · rw [if_neg (by omega), if_neg (show ¬ (addr ≤ i ∧ i < addr + (c :: v).length ∧ i < l.length) by omega)]
      split
      · rw [List.getElem?_eq_none (by omega)]; simp; omega
      · rfl

/-- A write over a whole store leaves the new bytes. -/
theorem overwrite_all {l v : List Byte} (h : v.length = l.length) : overwrite l 0 v = v := by
  apply List.ext_getElem?
  intro i
  rw [overwrite_getElem?]
  split
  · simp
  · rw [List.getElem?_eq_none (by omega), List.getElem?_eq_none (by omega)]

theorem blockOfBytes_block (b : Block) : blockOfBytes b.toList = b := by
  apply Vector.toList_inj.mp
  exact blockOfBytes_toList (by simp)

/-- A replacement by as many elements, which of BLOCK there are always 16. -/
theorem bytes_withBytes {s : State} {sp : Space} {l : List Byte} (h : l.length = (s.bytes sp).length) :
    (s.withBytes sp l).bytes sp = l := by
  cases sp with
  | buf => rfl
  | key => rfl
  | block =>
    rw [bytes_block, Vector.length_toList] at h
    exact blockOfBytes_toList h

theorem bytes_withBytes_ne {s : State} {sp sp' : Space} {l : List Byte} (h : sp' ≠ sp) :
    (s.withBytes sp l).bytes sp' = s.bytes sp' := by
  cases sp <;> cases sp' <;> first | exact absurd rfl h | rfl

@[simp] theorem withBytes_cfg (s : State) (sp : Space) (l : List Byte) : (s.withBytes sp l).cfg = s.cfg := by
  cases sp <;> rfl

theorem memRead_inside {s : State} {sp : Space} {addr n : Nat} (h : addr + n ≤ s.size sp) :
    s.memRead sp addr n = s.readRun sp addr n := if_pos h

theorem memWrite_inside {s : State} {sp : Space} {addr n : Nat} (v : Vector Byte n) (h : addr + n ≤ s.size sp) :
    s.memWrite sp addr n v = .ok (s.withBytes sp (overwrite (s.bytes sp) addr v.toList)) := if_pos h

/-- A write keeps the canonical form of the stores. -/
theorem wf_memWrite {s t : State} {sp : Space} {addr n : Nat} {v : Vector Byte n} (hw : Memory.wf s = true)
    (h : s.memWrite sp addr n v = .ok t) : Memory.wf t = true := by
  rw [State.memWrite] at h
  split at h
  · cases h; cases sp <;> simpa [wf_iff, State.withBytes] using hw
  · cases h

/-- Reading BUF from its start to the cursor gives the payload (10_state.md R23). -/
theorem memRead_payload {s : State} (h : Memory.wf s = true) : s.memRead .buf 0 s.ptr = .ok s.buf := by
  rw [memRead_inside (by simpa using (wf_iff s |>.mp h).1), readRun_ok s .buf _ _ (by simp)]
  simp

end Sys2Proof.Machine
end

