-- ==== Sys2Proof/Laws/PerInstr.lean ====
section
/-! SUPPORT. Per instruction: what it encodes to decodes to it, in every context its row applies in. -/

namespace Sys2Proof.Laws

/-- Every character without a HexVal is read as HEX_INVALID. -/
theorem decodeHex_invalid : ∀ c : Byte, Machine.hexVal c = none → decodeHex c = .hexInvalid c := by decide

end Sys2Proof.Laws

namespace Sys2Proof.Laws.RoundTrip

/-- A well-formed instruction's character decodes to it, wherever its row applies (30_encoding.md section 7). -/
def Statement (i : Instr) : Prop :=
  ∀ ctx : Context, i.wellFormed = true → i.runsIn ctx = true → decode ctx (encode i) = .ok i

theorem cmdX : Statement .cmdX := by
  intro ctx _ hr
  cases ctx with
  | step st room => cases st <;> rfl
  | hex => cases hr
  | tx => cases hr

theorem cmdK : Statement .cmdK := by
  intro ctx _ hr
  cases ctx with
  | step st room => cases st <;> rfl
  | hex => cases hr
  | tx => cases hr

theorem cmdP : Statement .cmdP := by
  intro ctx _ hr
  cases ctx with
  | step st room => cases st <;> rfl
  | hex => cases hr
  | tx => cases hr

theorem termLfReceivingKey : Statement .termLfReceivingKey := by
  intro ctx _ hr
  cases ctx with
  | step st room => cases st <;> first | rfl | cases hr
  | hex => cases hr
  | tx => cases hr

theorem termCrReceivingKey : Statement .termCrReceivingKey := by
  intro ctx _ hr
  cases ctx with
  | step st room => cases st <;> first | rfl | cases hr
  | hex => cases hr
  | tx => cases hr

theorem termLfReceivingPlaintext : Statement .termLfReceivingPlaintext := by
  intro ctx _ hr
  cases ctx with
  | step st room => cases st <;> first | rfl | cases hr
  | hex => cases hr
  | tx => cases hr

theorem termCrReceivingPlaintext : Statement .termCrReceivingPlaintext := by
  intro ctx _ hr
  cases ctx with
  | step st room => cases st <;> first | rfl | cases hr
  | hex => cases hr
  | tx => cases hr

theorem termLfIdle : Statement .termLfIdle := by
  intro ctx _ hr
  cases ctx with
  | step st room => cases st <;> first | rfl | cases hr
  | hex => cases hr
  | tx => cases hr

theorem termCrIdle : Statement .termCrIdle := by
  intro ctx _ hr
  cases ctx with
  | step st room => cases st <;> first | rfl | cases hr
  | hex => cases hr
  | tx => cases hr

theorem dataReceivingKeyFit (c : Byte) : Statement (.dataReceivingKeyFit c) := by
  intro ctx hw hr
  have hc : Machine.classify c = .data := of_decide_eq_true hw
  match ctx, hr with
  | .step .receivingKey true, _ => simp only [decode, encode, decodeStep, hc]; rfl

theorem dataReceivingKeyFull (c : Byte) : Statement (.dataReceivingKeyFull c) := by
  intro ctx hw hr
  have hc : Machine.classify c = .data := of_decide_eq_true hw
  match ctx, hr with
  | .step .receivingKey false, _ => simp only [decode, encode, decodeStep, hc]; rfl

theorem dataReceivingPlaintextFit (c : Byte) : Statement (.dataReceivingPlaintextFit c) := by
  intro ctx hw hr
  have hc : Machine.classify c = .data := of_decide_eq_true hw
  match ctx, hr with
  | .step .receivingPlaintext true, _ => simp only [decode, encode, decodeStep, hc]; rfl

theorem dataReceivingPlaintextFull (c : Byte) : Statement (.dataReceivingPlaintextFull c) := by
  intro ctx hw hr
  have hc : Machine.classify c = .data := of_decide_eq_true hw
  match ctx, hr with
  | .step .receivingPlaintext false, _ => simp only [decode, encode, decodeStep, hc]; rfl

theorem dataIdle (c : Byte) : Statement (.dataIdle c) := by
  intro ctx hw hr
  have hc : Machine.classify c = .data := of_decide_eq_true hw
  match ctx, hr with
  | .step .idle _, _ => simp only [decode, encode, decodeStep, hc]

theorem hex0 : Statement .hex0 := by
  intro ctx _ hr
  cases ctx <;> first | rfl | cases hr

theorem hex1 : Statement .hex1 := by
  intro ctx _ hr
  cases ctx <;> first | rfl | cases hr

theorem hex2 : Statement .hex2 := by
  intro ctx _ hr
  cases ctx <;> first | rfl | cases hr

theorem hex3 : Statement .hex3 := by
  intro ctx _ hr
  cases ctx <;> first | rfl | cases hr

theorem hex4 : Statement .hex4 := by
  intro ctx _ hr
  cases ctx <;> first | rfl | cases hr

theorem hex5 : Statement .hex5 := by
  intro ctx _ hr
  cases ctx <;> first | rfl | cases hr

theorem hex6 : Statement .hex6 := by
  intro ctx _ hr
  cases ctx <;> first | rfl | cases hr

theorem hex7 : Statement .hex7 := by
  intro ctx _ hr
  cases ctx <;> first | rfl | cases hr

theorem hex8 : Statement .hex8 := by
  intro ctx _ hr
  cases ctx <;> first | rfl | cases hr

theorem hex9 : Statement .hex9 := by
  intro ctx _ hr
  cases ctx <;> first | rfl | cases hr

theorem hexAUpper : Statement .hexAUpper := by
  intro ctx _ hr
  cases ctx <;> first | rfl | cases hr

theorem hexBUpper : Statement .hexBUpper := by
  intro ctx _ hr
  cases ctx <;> first | rfl | cases hr

theorem hexCUpper : Statement .hexCUpper := by
  intro ctx _ hr
  cases ctx <;> first | rfl | cases hr

theorem hexDUpper : Statement .hexDUpper := by
  intro ctx _ hr
  cases ctx <;> first | rfl | cases hr

theorem hexEUpper : Statement .hexEUpper := by
  intro ctx _ hr
  cases ctx <;> first | rfl | cases hr

theorem hexFUpper : Statement .hexFUpper := by
  intro ctx _ hr
  cases ctx <;> first | rfl | cases hr

theorem hexALower : Statement .hexALower := by
  intro ctx _ hr
  cases ctx <;> first | rfl | cases hr

theorem hexBLower : Statement .hexBLower := by
  intro ctx _ hr
  cases ctx <;> first | rfl | cases hr

theorem hexCLower : Statement .hexCLower := by
  intro ctx _ hr
  cases ctx <;> first | rfl | cases hr

theorem hexDLower : Statement .hexDLower := by
  intro ctx _ hr
  cases ctx <;> first | rfl | cases hr

theorem hexELower : Statement .hexELower := by
  intro ctx _ hr
  cases ctx <;> first | rfl | cases hr

theorem hexFLower : Statement .hexFLower := by
  intro ctx _ hr
  cases ctx <;> first | rfl | cases hr

theorem hexInvalid (c : Byte) : Statement (.hexInvalid c) := by
  intro ctx hw hr
  match ctx, hr with
  | .hex, _ => exact congrArg Except.ok (decodeHex_invalid c (of_decide_eq_true hw))

theorem respLead : Statement .respLead := by
  intro ctx _ hr
  cases ctx <;> first | rfl | cases hr

theorem respHex0 : Statement .respHex0 := by
  intro ctx _ hr
  cases ctx <;> first | rfl | cases hr

theorem respHex1 : Statement .respHex1 := by
  intro ctx _ hr
  cases ctx <;> first | rfl | cases hr

theorem respHex2 : Statement .respHex2 := by
  intro ctx _ hr
  cases ctx <;> first | rfl | cases hr

theorem respHex3 : Statement .respHex3 := by
  intro ctx _ hr
  cases ctx <;> first | rfl | cases hr

theorem respHex4 : Statement .respHex4 := by
  intro ctx _ hr
  cases ctx <;> first | rfl | cases hr

theorem respHex5 : Statement .respHex5 := by
  intro ctx _ hr
  cases ctx <;> first | rfl | cases hr

theorem respHex6 : Statement .respHex6 := by
  intro ctx _ hr
  cases ctx <;> first | rfl | cases hr

theorem respHex7 : Statement .respHex7 := by
  intro ctx _ hr
  cases ctx <;> first | rfl | cases hr

theorem respHex8 : Statement .respHex8 := by
  intro ctx _ hr
  cases ctx <;> first | rfl | cases hr

theorem respHex9 : Statement .respHex9 := by
  intro ctx _ hr
  cases ctx <;> first | rfl | cases hr

theorem respHexA : Statement .respHexA := by
  intro ctx _ hr
  cases ctx <;> first | rfl | cases hr

theorem respHexB : Statement .respHexB := by
  intro ctx _ hr
  cases ctx <;> first | rfl | cases hr

theorem respHexC : Statement .respHexC := by
  intro ctx _ hr
  cases ctx <;> first | rfl | cases hr

theorem respHexD : Statement .respHexD := by
  intro ctx _ hr
  cases ctx <;> first | rfl | cases hr

theorem respHexE : Statement .respHexE := by
  intro ctx _ hr
  cases ctx <;> first | rfl | cases hr

theorem respHexF : Statement .respHexF := by
  intro ctx _ hr
  cases ctx <;> first | rfl | cases hr

theorem respTerm : Statement .respTerm := by
  intro ctx _ hr
  cases ctx <;> first | rfl | cases hr

end Sys2Proof.Laws.RoundTrip
end

