-- ==== Sys2Proof/Laws/Step.lean ====
section
/-! SUPPORT. What one turn of the loop can do, said once; every invariant is a case analysis over it. -/

namespace Sys2Proof.Machine

/-- The outcomes of the turn for character `c` from state `s` (`s` has `c` already consumed), guards included. -/
inductive Turn (s : State) (c : Byte) (t : State) : Prop
  | command (st : Protocol) (hc : classify c ≠ .term ∧ classify c ≠ .data)
      (ht : t = { s with st := st, buf := [], trace := s.trace ++ [.rewind, .goto st] })
  | ignored (hst : s.st = .idle) (hc : classify c = .term ∨ classify c = .data)
      (ht : t = { s with st := .idle, trace := s.trace ++ [.goto .idle] })
  | append (hst : s.st ≠ .idle) (hc : classify c = .data) (hroom : s.ptr < bufLen s.cfg)
      (ht : t = { s with buf := s.buf ++ [c], trace := s.trace ++ [.append c, .goto s.st] })
  | overflow (hst : s.st ≠ .idle) (hc : classify c = .data) (hroom : ¬ s.ptr < bufLen s.cfg)
      (ht : t = s.discard .overflow)
  | badLength (hst : s.st ≠ .idle) (hc : classify c = .term) (ht : t = s.discard .badLength)
  | invalid (hst : s.st ≠ .idle) (hc : classify c = .term) (hd : packDigits (s.buf.map hexVal) = none)
      (ht : t = (s.decodePayload.act .decodeReturn).discard .invalidHexDigit)
  | keyed (hst : s.st = .receivingKey) (hc : classify c = .term) (hp : s.ptr = keyDigits s.cfg) (r : List Byte)
      (hd : packDigits (s.buf.map hexVal) = some r) (ht : t = s.keyComplete)
  | answered (hst : s.st = .receivingPlaintext) (hc : classify c = .term) (hp : s.ptr = blockDigits) (r : List Byte)
      (hd : packDigits (s.buf.map hexVal) = some r) (ht : t = s.plaintextComplete)

theorem turn_keyComplete (s : State) {c : Byte} (hst : s.st = .receivingKey) (hc : classify c = .term) :
    Turn s c s.keyComplete := by
  by_cases hp : s.ptr = keyDigits s.cfg
  · cases hd : packDigits (s.buf.map hexVal) with
    | none => exact .invalid (by simp [hst]) hc hd (keyComplete_invalid hp hd)
    | some r => exact .keyed hst hc hp r hd rfl
  · exact .badLength (by simp [hst]) hc (keyComplete_badLength hp)

theorem turn_plaintextComplete (s : State) {c : Byte} (hst : s.st = .receivingPlaintext) (hc : classify c = .term) :
    Turn s c s.plaintextComplete := by
  by_cases hp : s.ptr = blockDigits
  · cases hd : packDigits (s.buf.map hexVal) with
    | none => exact .invalid (by simp [hst]) hc hd (plaintextComplete_invalid hp hd)
    | some r => exact .answered hst hc hp r hd rfl
  · exact .badLength (by simp [hst]) hc (plaintextComplete_badLength hp)

theorem command_eq (s : State) (st : Protocol) :
    s.perform [.rewind, .goto st] = { s with st := st, buf := [], trace := s.trace ++ [.rewind, .goto st] } := by
  apply state_ext <;> simp

/-- Every character the decoder reads in a state has a turn, and `exec` takes it: there is always a next state. -/
theorem exec_turn (s : State) (c : Byte) :
    ∃ t, exec (decodeStep s.st s.hasRoom c) s = .next t ∧ Turn s c t := by
  cases hc : classify c with
  | cmdX => exact ⟨_, by simp only [decodeStep, hc]; rfl, .command .idle (by simp [hc]) (command_eq s _)⟩
  | cmdK => exact ⟨_, by simp only [decodeStep, hc]; rfl, .command .receivingKey (by simp [hc]) (command_eq s _)⟩
  | cmdP => exact ⟨_, by simp only [decodeStep, hc]; rfl, .command .receivingPlaintext (by simp [hc]) (command_eq s _)⟩
  | term =>
    cases hst : s.st with
    | idle =>
      refine ⟨s.perform [.goto .idle], ?_, .ignored hst (.inl hc) (by apply state_ext <;> simp)⟩
      simp only [decodeStep, hc]; split <;> rfl
    | receivingKey =>
      refine ⟨s.keyComplete, ?_, turn_keyComplete s hst hc⟩
      simp only [decodeStep, hc]; split <;> rfl
    | receivingPlaintext =>
      refine ⟨s.plaintextComplete, ?_, turn_plaintextComplete s hst hc⟩
      simp only [decodeStep, hc]; split <;> rfl
  | data =>
    cases hst : s.st with
    | idle =>
      refine ⟨s.perform [.goto .idle], ?_, .ignored hst (.inr hc) (by apply state_ext <;> simp)⟩
      simp only [decodeStep, hc]; rfl
    | receivingKey =>
      by_cases hr : s.ptr < bufLen s.cfg
      · refine ⟨_, ?_, .append (by simp [hst]) hc hr rfl⟩
        simp only [decodeStep, hc, State.hasRoom, decide_eq_true hr, if_true, hst]
        exact appendChar_room .receivingKey c hr
      · refine ⟨_, ?_, .overflow (by simp [hst]) hc hr rfl⟩
        simp [decodeStep, hc, State.hasRoom, hr, exec, execDataReceivingKeyFull]
    | receivingPlaintext =>
      by_cases hr : s.ptr < bufLen s.cfg
      · refine ⟨_, ?_, .append (by simp [hst]) hc hr rfl⟩
        simp only [decodeStep, hc, State.hasRoom, decide_eq_true hr, if_true, hst]
        exact appendChar_room .receivingPlaintext c hr
      · refine ⟨_, ?_, .overflow (by simp [hst]) hc hr rfl⟩
        simp [decodeStep, hc, State.hasRoom, hr, exec, execDataReceivingPlaintextFull]

theorem rx_eq (s : State) (c : Byte) :
    s.act (.rx c) = { s with rx := s.rx.tail, trace := s.trace ++ [.rx c] } := rfl

/-- What a step can do, once: a refused build, waiting, a turn, or a reset cut into what the step would do. -/
theorem serve_nil {s : State} (h : s.rx = []) : serve s = .next s := by rw [serve, h]

theorem serve_cons {s : State} {c : Byte} {rest : List Byte} (h : s.rx = c :: rest) :
    serve s = exec (decodeStep s.st s.hasRoom c) (s.act (.rx c)) := by rw [serve, h]

theorem serve_turn {s : State} {c : Byte} {rest : List Byte} (h : s.rx = c :: rest) :
    ∃ t, serve s = .next t ∧ Turn (s.act (.rx c)) c t := by
  rw [serve_cons h]
  exact exec_turn (s.act (.rx c)) c

/-- A step with no reset pending, whatever it answers, is a turn of the loop of a legal build. -/
theorem step_next_none {s t : State} (hr : s.rst = none) (h : step s = .next t) :
    legal s.cfg = true ∧ serve s = .next t := by
  rw [step, loopStep] at h
  split at h
  · rw [hr] at h; exact ⟨‹_›, h⟩
  · cases h

theorem step_none {s : State} (hl : legal s.cfg = true) (hr : s.rst = none) : step s = serve s := by
  rw [step, loopStep, if_pos hl, hr]

/-- A step with a reset pending leaves the reset state of what the step had done by then. -/
theorem step_some {s : State} {k : Nat} (hl : legal s.cfg = true) (hr : s.rst = some k) :
    ∃ t, serve s = .next t ∧ step s = .next (s.cutAt t k).resetNow := by
  rw [step, loopStep, if_pos hl, hr]
  cases hrx : s.rx with
  | nil => exact ⟨s, serve_nil hrx, by simp [resetDuring, serve_nil hrx]⟩
  | cons c rest =>
    obtain ⟨t, ht, -⟩ := serve_turn hrx
    exact ⟨t, ht, by simp [resetDuring, ht]⟩

/-- The inversion of `step`: waiting, a turn, or a reset. -/
theorem step_cases {s t : State} (h : step s = .next t) :
    legal s.cfg = true ∧
    ((s.rst = none ∧ s.rx = [] ∧ t = s) ∨
     (s.rst = none ∧ ∃ c rest, s.rx = c :: rest ∧ Turn (s.act (.rx c)) c t) ∨
     (∃ k u, s.rst = some k ∧ serve s = .next u ∧ t = (s.cutAt u k).resetNow)) := by
  have hl : legal s.cfg = true := by
    rw [step, loopStep] at h
    split at h
    · assumption
    · cases h
  refine ⟨hl, ?_⟩
  cases hr : s.rst with
  | none =>
    rw [step_none hl hr] at h
    cases hrx : s.rx with
    | nil => rw [serve_nil hrx] at h; cases h; exact .inl ⟨rfl, rfl, rfl⟩
    | cons c rest =>
      obtain ⟨u, hu, hturn⟩ := serve_turn hrx
      rw [hu] at h; cases h
      exact .inr (.inl ⟨rfl, c, rest, rfl, hturn⟩)
  | some k =>
    obtain ⟨u, hu, hs⟩ := step_some hl hr
    rw [hs] at h; cases h
    exact .inr (.inr ⟨k, u, rfl, hu, rfl⟩)

end Sys2Proof.Machine
end

