-- ==== Sys2Proof/Laws/Run.lean ====
section
/-! SUPPORT. Runs of several steps, and the two steps every command payload is made of. -/

namespace Sys2Proof.Machine

theorem run_step {M : Host.Core} {n : Nat} {s t : M.State} (h : M.step s = .next t) :
    M.run (n + 1) s = M.run n t := by
  rw [Host.Core.run, h]

theorem run_add {M : Host.Core} {n : Nat} (m : Nat) {s t : M.State} (h : M.run n s = .next t) :
    M.run (n + m) s = M.run m t := by
  induction n generalizing s with
  | zero => cases h; rw [Nat.zero_add]
  | succ n ih =>
    rw [show n + 1 + m = (n + m) + 1 by omega, Host.Core.run]
    rw [Host.Core.run] at h
    cases hs : M.step s with
    | next u => rw [hs] at h; exact ih h
    | fault f => rw [hs] at h; cases h
    | refused r => rw [hs] at h; cases h

theorem core_run_zero (s : State) : Sys2Proof.core.run 0 s = .next s := rfl

theorem core_run_step {n : Nat} {s t : State} (h : step s = .next t) :
    Sys2Proof.core.run (n + 1) s = Sys2Proof.core.run n t := run_step (M := Sys2Proof.core) h

theorem core_run_add {n : Nat} (m : Nat) {s t : State} (h : Sys2Proof.core.run n s = .next t) :
    Sys2Proof.core.run (n + m) s = Sys2Proof.core.run m t := run_add (M := Sys2Proof.core) m h

/-- A step over a received character is a turn. -/
theorem step_turn {s : State} {c : Byte} {rest : List Byte} (hl : legal s.cfg = true) (hr : s.rst = none)
    (hrx : s.rx = c :: rest) : ∃ t, step s = .next t ∧ Turn (s.act (.rx c)) c t := by
  rw [step_none hl hr]
  exact serve_turn hrx

/-- A step over a command character. -/
theorem step_command {s : State} {c : Byte} {rest : List Byte} {st : Protocol} (hl : legal s.cfg = true)
    (hr : s.rst = none) (hrx : s.rx = c :: rest)
    (hc : (c, st) ∈ [(charX, Protocol.idle), (charK, .receivingKey), (charP, .receivingPlaintext)]) :
    step s = .next { s with
      rx := rest, buf := [], st := st, trace := s.trace ++ [.rx c, .rewind, .goto st] } := by
  simp only [List.mem_cons, Prod.mk.injEq, List.not_mem_nil, or_false] at hc
  rw [step_none hl hr, serve_cons hrx]
  obtain ⟨rfl, rfl⟩ | ⟨rfl, rfl⟩ | ⟨rfl, rfl⟩ := hc <;>
    (show Host.Outcome.next _ = _; congr 1; apply state_ext <;> simp [hrx])

/-- A step over a DATA character in a receiving state with room. -/
theorem step_append {s : State} {c : Byte} {rest : List Byte} (hl : legal s.cfg = true) (hr : s.rst = none)
    (hrx : s.rx = c :: rest) (hst : s.st ≠ .idle) (hc : classify c = .data) (hroom : s.ptr < bufLen s.cfg) :
    step s = .next { s with
      rx := rest, buf := s.buf ++ [c], trace := s.trace ++ [.rx c, .append c, .goto s.st] } := by
  obtain ⟨t, ht, hturn⟩ := step_turn hl hr hrx
  rw [ht]
  congr 1
  cases hturn with
  | append _ _ _ h => subst h; apply state_ext <;> simp [hrx]
  | command _ hc' => simp [hc] at hc'
  | ignored hst' => exact absurd hst' hst
  | overflow _ _ h => exact absurd hroom h
  | badLength _ hc' => simp [hc] at hc'
  | invalid _ hc' => simp [hc] at hc'
  | keyed _ hc' => simp [hc] at hc'
  | answered _ hc' => simp [hc] at hc'

/-- A step over a DATA character in a receiving state without room. -/
theorem step_overflow {s : State} {c : Byte} {rest : List Byte} (hl : legal s.cfg = true) (hr : s.rst = none)
    (hrx : s.rx = c :: rest) (hst : s.st ≠ .idle) (hc : classify c = .data) (hroom : ¬ s.ptr < bufLen s.cfg) :
    step s = .next { s with
      rx := rest, buf := [], st := .idle
      trace := s.trace ++ [.rx c, .raise .overflow, .rewind, .goto .idle] } := by
  obtain ⟨t, ht, hturn⟩ := step_turn hl hr hrx
  rw [ht]
  congr 1
  cases hturn with
  | overflow _ _ _ h => subst h; rw [discard_eq]; apply state_ext <;> simp [hrx]
  | append _ _ h => exact absurd h hroom
  | command _ hc' => simp [hc] at hc'
  | ignored hst' => exact absurd hst' hst
  | badLength _ hc' => simp [hc] at hc'
  | invalid _ hc' => simp [hc] at hc'
  | keyed _ hc' => simp [hc] at hc'
  | answered _ hc' => simp [hc] at hc'

/-- A step over a terminator is the completion of the receiving state. -/
theorem step_terminator {s : State} {c : Byte} {rest : List Byte} (hl : legal s.cfg = true) (hr : s.rst = none)
    (hrx : s.rx = c :: rest) (hc : classify c = .term) :
    (s.st = .receivingKey → step s = .next (s.act (.rx c)).keyComplete) ∧
    (s.st = .receivingPlaintext → step s = .next (s.act (.rx c)).plaintextComplete) := by
  rw [step_none hl hr, serve_cons hrx]
  constructor <;> intro hst <;> simp only [decodeStep, hc, hst] <;> split <;> rfl

end Sys2Proof.Machine
end

