-- ==== Sys2Proof/Tests/Slice0.lean ====
section
/-! SUPPORT. The model's own tests: words written out from the spec's encodings, ill-formed terms, one step per vector
of spec/95_test_vectors.md, and a witness for the hypotheses of each statement.  Expected values are the spec's. -/

/-- A state with these characters to come. -/
def Sys2Proof.Machine.State.withRx (s : Sys2Proof.Machine.State) (rx : List Sys2Proof.Byte) : Sys2Proof.Machine.State :=
  { s with rx := rx }

namespace Sys2Proof.Tests

open Sys2Proof Sys2Proof.Machine

/-! ## Helpers -/

/-- A build with KEY_LENGTH `n`, DEFAULT_KEY 0, 1, 2, …, and the given jitter option. -/
def build (n : Nat) (jitter : Jitter) (cal : Calibration) : Config where
  keyLength := n
  defaultKey := (List.range n).map (BitVec.ofNat 8)
  jitter := jitter
  cal := cal

/-- The illustration numbers of vectors T2 and T3. -/
def calNumbers : Calibration := { min := 10, max := 200, center := 100, vary := 9, nominalCal := 100, calWidth := 8 }

/-- The build the vectors speak of: KEY_LENGTH 16, JITTER Off. -/
def cfg16 : Config := build 16 .off calNumbers

/-- The build of T3: JITTER Centered. -/
def cfgJitter : Config := build 16 .centered calNumbers

/-- A state of a build with a protocol state and a payload received so far. -/
def stateAt (cfg : Config) (st : Protocol) (buf : List Byte) : State :=
  { State.resetOf cfg with st := st, buf := buf, trace := [] }

/-- `n` characters '0'. -/
def zeros (n : Nat) : List Byte := List.replicate n 0x30#8

/-- K of the vectors: the characters of "E8E9EAEBEDEEEFF0F2F3F4F5F7F8F9FA". -/
def payloadK : List Byte :=
  [0x45, 0x38, 0x45, 0x39, 0x45, 0x41, 0x45, 0x42, 0x45, 0x44, 0x45, 0x45, 0x45, 0x46, 0x46, 0x30,
   0x46, 0x32, 0x46, 0x33, 0x46, 0x34, 0x46, 0x35, 0x46, 0x37, 0x46, 0x38, 0x46, 0x39, 0x46, 0x41]

/-- KB of the vectors. -/
def bytesK : List Byte :=
  [0xE8, 0xE9, 0xEA, 0xEB, 0xED, 0xEE, 0xEF, 0xF0, 0xF2, 0xF3, 0xF4, 0xF5, 0xF7, 0xF8, 0xF9, 0xFA]

/-- P of the vectors: the characters of "014BAF2278A69D331D5180103643E99A". -/
def payloadP : List Byte :=
  [0x30, 0x31, 0x34, 0x42, 0x41, 0x46, 0x32, 0x32, 0x37, 0x38, 0x41, 0x36, 0x39, 0x44, 0x33, 0x33,
   0x31, 0x44, 0x35, 0x31, 0x38, 0x30, 0x31, 0x30, 0x33, 0x36, 0x34, 0x33, 0x45, 0x39, 0x39, 0x41]

/-- PB of the vectors. -/
def bytesP : List Byte :=
  [0x01, 0x4B, 0xAF, 0x22, 0x78, 0xA6, 0x9D, 0x33, 0x1D, 0x51, 0x80, 0x10, 0x36, 0x43, 0xE9, 0x9A]

/-- What a test looks at in an answer: `(st, ptr)` and the new events. -/
def shows (o : Host.Outcome State Fault Refusal) : Option (Protocol × Nat × List Event) :=
  match o with
  | .next t => some (t.st, t.ptr, t.events)
  | _ => none

/-- The keys an answer leaves. -/
def keysOf (o : Host.Outcome State Fault Refusal) : Option (List Byte × List Byte) :=
  match o with
  | .next t => some (t.key, t.ek)
  | _ => none

/-- The last payload character an answer leaves. -/
def lastOf (o : Host.Outcome State Fault Refusal) : Option Byte :=
  match o with
  | .next t => t.buf.getLast?
  | _ => none

/-- The digit an answer leaves last in the decode in progress. -/
def digitOf (o : Host.Outcome State Fault Refusal) : Option (Option Nibble) :=
  match o with
  | .next t => t.nibbles.getLast?
  | _ => none

/-- The characters an answer has sent. -/
def sentOf (o : Host.Outcome State Fault Refusal) : Option (List Byte) :=
  match o with
  | .next t => some t.sent
  | _ => none

/-! ## Decoding: the codes of 30_encoding.md R72 and spec/opcode_table.json, bit by bit -/

theorem test_decode_commands :
    decodeStep .idle true 0b01111000#8 = .cmdX ∧ decodeStep .receivingKey false 0b01101011#8 = .cmdK ∧
    decodeStep .receivingPlaintext true 0b01110000#8 = .cmdP := by decide

theorem test_decode_terminators :
    decodeStep .receivingKey true 0b00001010#8 = .termLfReceivingKey ∧
    decodeStep .receivingKey false 0b00001101#8 = .termCrReceivingKey ∧
    decodeStep .receivingPlaintext true 0b00001010#8 = .termLfReceivingPlaintext ∧
    decodeStep .receivingPlaintext false 0b00001101#8 = .termCrReceivingPlaintext ∧
    decodeStep .idle true 0b00001010#8 = .termLfIdle ∧ decodeStep .idle false 0b00001101#8 = .termCrIdle := by decide

theorem test_decode_data :
    decodeStep .receivingKey true 0b01001011#8 = .dataReceivingKeyFit 0x4B#8 ∧
    decodeStep .receivingKey false 0b00110000#8 = .dataReceivingKeyFull 0x30#8 ∧
    decodeStep .receivingPlaintext true 0b10000000#8 = .dataReceivingPlaintextFit 0x80#8 ∧
    decodeStep .receivingPlaintext false 0b00000000#8 = .dataReceivingPlaintextFull 0x00#8 ∧
    decodeStep .idle true 0b01110010#8 = .dataIdle 0x72#8 := by decide

theorem test_decode_digits :
    decodeHex 0b00110000#8 = .hex0 ∧ decodeHex 0b00110001#8 = .hex1 ∧ decodeHex 0b00110010#8 = .hex2 ∧
    decodeHex 0b00110011#8 = .hex3 ∧ decodeHex 0b00110100#8 = .hex4 ∧ decodeHex 0b00110101#8 = .hex5 ∧
    decodeHex 0b00110110#8 = .hex6 ∧ decodeHex 0b00110111#8 = .hex7 ∧ decodeHex 0b00111000#8 = .hex8 ∧
    decodeHex 0b00111001#8 = .hex9 := by decide

theorem test_decode_hex_letters :
    decodeHex 0b01000001#8 = .hexAUpper ∧ decodeHex 0b01000010#8 = .hexBUpper ∧ decodeHex 0b01000011#8 = .hexCUpper ∧
    decodeHex 0b01000100#8 = .hexDUpper ∧ decodeHex 0b01000101#8 = .hexEUpper ∧ decodeHex 0b01000110#8 = .hexFUpper ∧
    decodeHex 0b01100001#8 = .hexALower ∧ decodeHex 0b01100010#8 = .hexBLower ∧ decodeHex 0b01100011#8 = .hexCLower ∧
    decodeHex 0b01100100#8 = .hexDLower ∧ decodeHex 0b01100101#8 = .hexELower ∧ decodeHex 0b01100110#8 = .hexFLower := by
  decide

/-- '/', ':', '@', 'G', '`', 'g': the neighbours of the three digit ranges. -/
theorem test_decode_digit_neighbours :
    decodeHex 0b00101111#8 = .hexInvalid 0x2F#8 ∧ decodeHex 0b00111010#8 = .hexInvalid 0x3A#8 ∧
    decodeHex 0b01000000#8 = .hexInvalid 0x40#8 ∧ decodeHex 0b01000111#8 = .hexInvalid 0x47#8 ∧
    decodeHex 0b01100000#8 = .hexInvalid 0x60#8 ∧ decodeHex 0b01100111#8 = .hexInvalid 0x67#8 := by decide

theorem test_decode_transmit_digits :
    decodeTx 0b00110000#8 = .ok .respHex0 ∧ decodeTx 0b00110001#8 = .ok .respHex1 ∧
    decodeTx 0b00110010#8 = .ok .respHex2 ∧ decodeTx 0b00110011#8 = .ok .respHex3 ∧
    decodeTx 0b00110100#8 = .ok .respHex4 ∧ decodeTx 0b00110101#8 = .ok .respHex5 ∧
    decodeTx 0b00110110#8 = .ok .respHex6 ∧ decodeTx 0b00110111#8 = .ok .respHex7 ∧
    decodeTx 0b00111000#8 = .ok .respHex8 ∧ decodeTx 0b00111001#8 = .ok .respHex9 := by decide

theorem test_decode_transmit_letters :
    decodeTx 0b01000001#8 = .ok .respHexA ∧ decodeTx 0b01000010#8 = .ok .respHexB ∧
    decodeTx 0b01000011#8 = .ok .respHexC ∧ decodeTx 0b01000100#8 = .ok .respHexD ∧
    decodeTx 0b01000101#8 = .ok .respHexE ∧ decodeTx 0b01000110#8 = .ok .respHexF ∧
    decodeTx 0b01110010#8 = .ok .respLead ∧ decodeTx 0b00001010#8 = .ok .respTerm := by decide

/-- CR, 'a' and a space are never transmitted (30_encoding.md R76). -/
theorem test_decode_transmit_rejects :
    decodeTx 0x0D#8 = .error (.notTransmitted 0x0D#8) ∧ decodeTx 0x61#8 = .error (.notTransmitted 0x61#8) ∧
    decodeTx 0x20#8 = .error (.notTransmitted 0x20#8) := by decide

theorem test_decode_bytes :
    decodeBytes .hex [0x41#8, 0x42#8] = .ok (.hexAUpper, [0x42#8]) ∧ decodeBytes .tx [] = .error .noCharacter := by decide

theorem test_decode_table_word :
    decodeTableWord 8 0x78 = some .cmdX ∧ decodeTableWord 8 0x6B = some .cmdK ∧ decodeTableWord 8 0x70 = some .cmdP ∧
    decodeTableWord 8 0x0A = some .termLfIdle ∧ decodeTableWord 8 0 = some (.dataIdle 0#8) := by decide

/-- The state bits of 10_state.md R22 and the widths of `ptr` of R23. -/
theorem test_protocol_bits_and_ptr_width :
    protocolBits .idle = 0b00#2 ∧ protocolBits .receivingKey = 0b01#2 ∧ protocolBits .receivingPlaintext = 0b10#2 ∧
    ptrWidth cfg16 = 7 ∧ ptrWidth (build 24 .off calNumbers) = 7 ∧ ptrWidth (build 32 .off calNumbers) = 8 := by decide

/-! ## WellFormed: an ill-formed term for each check -/

theorem test_illformed_dataReceivingKeyFit : (Instr.dataReceivingKeyFit 0x78#8).wellFormed = false := by decide
theorem test_illformed_dataReceivingKeyFull : (Instr.dataReceivingKeyFull 0x0A#8).wellFormed = false := by decide
theorem test_illformed_dataReceivingPlaintextFit : (Instr.dataReceivingPlaintextFit 0x0D#8).wellFormed = false := by
  decide
theorem test_illformed_dataReceivingPlaintextFull : (Instr.dataReceivingPlaintextFull 0x6B#8).wellFormed = false := by
  decide
theorem test_illformed_dataIdle : (Instr.dataIdle 0x70#8).wellFormed = false := by decide
theorem test_illformed_hexInvalid : (Instr.hexInvalid 0x66#8).wellFormed = false := by decide

/-! ## The Hex Codec: vectors C1 to C17 -/

/-- C1 to C8. -/
theorem test_hex_decode :
    hexDecode [0x30, 0x30] 2 = some [0x00] ∧ hexDecode [0x46, 0x46] 2 = some [0xFF] ∧
    hexDecode [0x66, 0x66] 2 = some [0xFF] ∧ hexDecode [0x61, 0x46] 2 = some [0xAF] ∧
    hexDecode [0x41, 0x66] 2 = some [0xAF] ∧ hexDecode [0x30, 0x61] 2 = some [0x0A] ∧
    hexDecode [0x41, 0x30] 2 = some [0xA0] ∧ hexDecode [0x37, 0x66] 2 = some [0x7F] ∧
    hexDecode [0x38, 0x30] 2 = some [0x80] ∧ hexDecode [0x30, 0x31, 0x34, 0x42] 4 = some [0x01, 0x4B] := by decide

/-- C9 and C16. -/
theorem test_hex_block : hexDecode payloadP 32 = some bytesP ∧ hexEncode bytesP 16 = payloadP := by decide

/-- 20_memory.md R52 (b): byte j of the payload is byte j of the Block, here for PB. -/
theorem test_block_bytes :
    (blockOfBytes bytesP).toList =
      [0x01, 0x4B, 0xAF, 0x22, 0x78, 0xA6, 0x9D, 0x33, 0x1D, 0x51, 0x80, 0x10, 0x36, 0x43, 0xE9, 0x9A] := by decide

/-- C10 to C12, and the decode of K. -/
theorem test_hex_invalid :
    hexDecode [0x30, 0x67] 2 = none ∧ hexDecode [0x47, 0x30] 2 = none ∧ hexDecode [0x20, 0x30] 2 = none ∧
    hexDecode [0x30, 0x78] 2 = none ∧ hexDecode [] 0 = some [] ∧ hexDecode payloadK 32 = some bytesK := by decide

/-- C13 to C15 and C17. -/
theorem test_hex_encode :
    hexEncode [0x00] 1 = [0x30, 0x30] ∧ hexEncode [0xFF] 1 = [0x46, 0x46] ∧ hexEncode [0x0A] 1 = [0x30, 0x41] ∧
    hexEncode [0xA0] 1 = [0x41, 0x30] ∧
    hexEncode [0xDE, 0xAD, 0xBE, 0xEF] 4 = [0x44, 0x45, 0x41, 0x44, 0x42, 0x45, 0x45, 0x46] ∧
    (hexDecode [0x64, 0x65, 0x61, 0x64, 0x62, 0x65, 0x65, 0x66] 8).map (hexEncode · 4) =
      some [0x44, 0x45, 0x41, 0x44, 0x42, 0x45, 0x45, 0x46] := by decide

/-! ## One step: vectors F1 to F27 -/

/-- F2, F3. -/
theorem test_cmdX :
    shows (exec .cmdX (stateAt cfg16 .receivingKey (zeros 5))) = some (.idle, 0, []) ∧
    shows (exec .cmdX (stateAt cfg16 .receivingPlaintext (zeros 64))) = some (.idle, 0, []) := by decide

/-- F5, F6. -/
theorem test_cmdK :
    shows (exec .cmdK (stateAt cfg16 .receivingKey (zeros 17))) = some (.receivingKey, 0, []) ∧
    shows (exec .cmdK (stateAt cfg16 .receivingPlaintext (zeros 31))) = some (.receivingKey, 0, []) := by decide

/-- F26, F27. -/
theorem test_cmdP :
    shows (exec .cmdP (stateAt cfg16 .receivingPlaintext (zeros 10))) = some (.receivingPlaintext, 0, []) ∧
    shows (exec .cmdP (stateAt cfg16 .receivingKey (zeros 10))) = some (.receivingPlaintext, 0, []) := by decide

/-- F8. -/
theorem test_termLfReceivingKey :
    shows (exec .termLfReceivingKey (stateAt cfg16 .receivingKey payloadK)) = some (.idle, 0, [.engSetKey bytesK]) ∧
    keysOf (exec .termLfReceivingKey (stateAt cfg16 .receivingKey payloadK)) = some (bytesK, bytesK) := by decide

/-- F12, F20. -/
theorem test_termLfReceivingKey_discards :
    shows (exec .termLfReceivingKey (stateAt cfg16 .receivingKey (zeros 64))) = some (.idle, 0, []) ∧
    keysOf (exec .termLfReceivingKey (stateAt cfg16 .receivingKey (zeros 31 ++ [0x47]))) =
      some (cfg16.defaultKey, cfg16.defaultKey) := by decide

/-- F9. -/
theorem test_termCrReceivingKey :
    shows (exec .termCrReceivingKey (stateAt cfg16 .receivingKey payloadK)) = some (.idle, 0, [.engSetKey bytesK]) := by
  decide

/-- F21: the length is tested before the digits. -/
theorem test_termCrReceivingKey_length_first :
    exec .termCrReceivingKey (stateAt cfg16 .receivingKey (zeros 3 ++ [0x20] ++ zeros 26)) =
      .next { stateAt cfg16 .idle [] with trace := [.raise .badLength, .rewind, .goto .idle] } := rfl

/-- F15: the block and the state left. -/
theorem test_termLfReceivingPlaintext :
    ∃ t, exec .termLfReceivingPlaintext { stateAt cfg16 .receivingPlaintext payloadP with ek := bytesK } = .next t ∧
      t.block = Config.enc bytesK (blockOfBytes bytesP) ∧ t.st = .idle ∧ t.ptr = 0 ∧ t.trig = false := by
  refine ⟨_, rfl, ?_⟩
  rw [plaintextComplete_off (r := bytesP) (by decide) (by decide) rfl]
  exact ⟨rfl, rfl, rfl, rfl⟩

/-- S1, P1: the frame of a response, here for the characters of P. -/
theorem test_emitResponse :
    ((stateAt cfg16 .receivingPlaintext payloadP).emitResponse payloadP).sent = 0x72#8 :: payloadP ++ [0x0A#8] := by decide

/-- P7: after the decode (34 actions) and the write of the block, the draw 104 is the calibration. -/
theorem test_termCrReceivingPlaintext_jitter :
    ∃ t, exec .termCrReceivingPlaintext { stateAt cfgJitter .receivingPlaintext payloadP with rnd := [104] } = .next t ∧
      t.cal = 100 ∧ t.rnd = [] ∧ (t.trace.drop 35).take 3 = [.delay .settlePre, .sample 104, .writeCal 104] := by
  refine ⟨_, rfl, ?_⟩
  rw [plaintextComplete_on (r := bytesP) (by decide) (by decide) (by decide)]
  exact ⟨rfl, rfl, rfl⟩

/-- F16 to F19. -/
theorem test_termCrReceivingPlaintext_discards :
    shows (exec .termCrReceivingPlaintext (stateAt cfg16 .receivingPlaintext [])) = some (.idle, 0, []) ∧
    shows (exec .termCrReceivingPlaintext (stateAt cfg16 .receivingPlaintext (zeros 31))) = some (.idle, 0, []) ∧
    shows (exec .termCrReceivingPlaintext (stateAt cfg16 .receivingPlaintext (zeros 34))) = some (.idle, 0, []) ∧
    shows (exec .termCrReceivingPlaintext (stateAt cfg16 .receivingPlaintext (zeros 30 ++ [0x67, 0x30]))) =
      some (.idle, 0, []) := by decide

/-- F22. -/
theorem test_terminators_idle :
    shows (exec .termLfIdle (stateAt cfg16 .idle [])) = some (.idle, 0, []) ∧
    shows (exec .termCrIdle (stateAt cfg16 .idle [])) = some (.idle, 0, []) := by decide

/-- F7, F10, F24. -/
theorem test_dataReceivingKeyFit :
    shows (exec (.dataReceivingKeyFit 0x30) (stateAt cfg16 .receivingKey (zeros 63))) = some (.receivingKey, 64, []) ∧
    lastOf (exec (.dataReceivingKeyFit 0x4B) (stateAt cfg16 .receivingKey [])) = some 0x4B#8 := by decide

/-- F11. -/
theorem test_dataReceivingKeyFull :
    shows (exec (.dataReceivingKeyFull 0x30) (stateAt cfg16 .receivingKey (zeros 64))) = some (.idle, 0, []) := by decide

/-- F13, F25. -/
theorem test_dataReceivingPlaintextFit :
    shows (exec (.dataReceivingPlaintextFit 0x30) (stateAt cfg16 .receivingPlaintext (zeros 63))) =
      some (.receivingPlaintext, 64, []) ∧
    lastOf (exec (.dataReceivingPlaintextFit 0x80) (stateAt cfg16 .receivingPlaintext (zeros 4))) = some 0x80#8 := by decide

/-- F14. -/
theorem test_dataReceivingPlaintextFull :
    shows (exec (.dataReceivingPlaintextFull 0x30) (stateAt cfg16 .receivingPlaintext (zeros 64))) = some (.idle, 0, []) := by
  decide

/-- F23: 'r' in Idle. -/
theorem test_dataIdle : shows (exec (.dataIdle 0x72) (stateAt cfg16 .idle [])) = some (.idle, 0, []) := by decide

/-- The values of 30_encoding.md R73. -/
theorem test_hex_digit_rows :
    [Instr.hex0, .hex1, .hex2, .hex3, .hex4, .hex5, .hex6, .hex7, .hex8, .hex9].map
        (fun i => digitOf (exec i (stateAt cfg16 .idle []))) =
      [0, 1, 2, 3, 4, 5, 6, 7, 8, 9].map (fun n => some (some (BitVec.ofNat 4 n))) := by decide

theorem test_hex_letter_rows :
    [Instr.hexAUpper, .hexBUpper, .hexCUpper, .hexDUpper, .hexEUpper, .hexFUpper, .hexALower, .hexBLower, .hexCLower,
      .hexDLower, .hexELower, .hexFLower].map (fun i => digitOf (exec i (stateAt cfg16 .idle []))) =
      [10, 11, 12, 13, 14, 15, 10, 11, 12, 13, 14, 15].map (fun n => some (some (BitVec.ofNat 4 n))) := by decide

theorem test_hexInvalid : digitOf (exec (.hexInvalid 0x67) (stateAt cfg16 .idle [])) = some none := by decide

/-- The characters of 30_encoding.md R74 and R76. -/
theorem test_transmit_digit_rows :
    [Instr.respHex0, .respHex1, .respHex2, .respHex3, .respHex4, .respHex5, .respHex6, .respHex7, .respHex8,
      .respHex9].map (fun i => sentOf (exec i (stateAt cfg16 .idle []))) =
      [0x30, 0x31, 0x32, 0x33, 0x34, 0x35, 0x36, 0x37, 0x38, 0x39].map (fun c : Byte => some [c]) := by decide

theorem test_transmit_letter_rows :
    [Instr.respHexA, .respHexB, .respHexC, .respHexD, .respHexE, .respHexF, .respLead, .respTerm].map
        (fun i => sentOf (exec i (stateAt cfg16 .idle []))) =
      [0x41, 0x42, 0x43, 0x44, 0x45, 0x46, 0x72, 0x0A].map (fun c : Byte => some [c]) := by decide

/-! ## MemRead and MemWrite: 20_memory.md R51 -/

/-- Lowest index first, at the end of the store; the byte below is untouched. -/
theorem test_memWrite_key :
    keysOf ((stateAt cfg16 .idle []).memWrite .key 14 2 #v[0xAA, 0xBB] |> fun
        | .ok t => .next t
        | .error f => .fault f) =
      some ([0, 1, 2, 3, 4, 5, 6, 7, 8, 9, 10, 11, 12, 13, 0xAA, 0xBB], cfg16.defaultKey) := by decide

/-- Outside the bound, where R51 defines nothing, no bytes wanted included. -/
theorem test_memRead_bounds :
    (stateAt cfg16 .idle []).memRead .key 14 2 = .ok [14, 15] ∧
    (stateAt cfg16 .idle []).memRead .key 16 0 = .ok [] ∧
    (stateAt cfg16 .idle []).memRead .key 17 0 = .error (.outOfStore .key 17) ∧
    (stateAt cfg16 .idle []).memRead .block 15 2 = .error (.outOfStore .block 16) ∧
    (stateAt cfg16 .receivingKey (zeros 3)).memRead .buf 1 2 = .ok [0x30, 0x30] ∧
    (stateAt cfg16 .receivingKey (zeros 3)).memRead .buf 1 3 = .error (.undefinedElement 3) := by decide

/-! ## The step, the trigger, reset -/

/-- F4 as a step. -/
theorem test_step_consumes :
    step (((stateAt cfg16 .idle []).withRx [0x6B, 0x30])) =
      .next { stateAt cfg16 .receivingKey [] with
        rx := [0x30], trace := [.rx 0x6B, .rewind, .goto .receivingKey] } := rfl

/-- T1. -/
theorem test_trigger_off :
    ({ stateAt cfg16 .idle [] with block := blockOfBytes bytesP, ek := bytesK } : State).triggerSequence.events =
      [.trig true, .engEncrypt (blockOfBytes bytesP) (Config.enc bytesK (blockOfBytes bytesP)), .trig false] := rfl

/-- T3: the draw 104, the calibration and the delays outside the bracket. -/
theorem test_trigger_centered :
    ({ stateAt cfgJitter .idle [] with block := blockOfBytes bytesP, ek := bytesK, rnd := [104] } :
        State).triggerSequence.events =
      [.delay .settlePre, .cal 104, .delay .settlePost, .trig true,
        .engEncrypt (blockOfBytes bytesP) (Config.enc bytesK (blockOfBytes bytesP)), .trig false,
        .cal 100, .delay .restore] := rfl

/-- T2: the ends of the window are drawn as they are. -/
theorem test_draw_full_range :
    drawFrom (build 16 .fullRange calNumbers) 10 = 10 ∧ drawFrom (build 16 .fullRange calNumbers) 200 = 200 := by decide

/-- T3, T4. -/
theorem test_draw_centered :
    calLo cfgJitter = 96 ∧ calHi cfgJitter = 104 ∧ drawFrom cfgJitter 96 = 96 ∧ drawFrom cfgJitter 104 = 104 ∧
    drawFrom cfgJitter 95 ≠ 95 ∧ drawFrom cfgJitter 105 ≠ 105 := by decide

/-- T5. -/
theorem test_refused_build :
    step (stateAt (build 16 .centered { calNumbers with center := 2 }) .idle []) = .refused .illegalConfiguration := rfl

/-- Z1. -/
theorem test_reset_events :
    (State.resetOf cfg16).events = [.engInit, .engSetKey cfg16.defaultKey] := by decide

/-- Z2: a reset with a key set and a partial payload. -/
theorem test_reset_while_receiving :
    shows (step { stateAt cfg16 .receivingKey (zeros 12) with key := bytesK, ek := bytesK, rst := some 0 }) =
      some (.idle, 0, [.engInit, .engSetKey cfg16.defaultKey]) ∧
    keysOf (step { stateAt cfg16 .receivingKey (zeros 12) with key := bytesK, ek := bytesK, rst := some 0 }) =
      some (cfg16.defaultKey, cfg16.defaultKey) := by decide

/-- Z3: 'x' is not a reset. -/
theorem test_abort_keeps_key :
    keysOf (exec .cmdX { stateAt cfg16 .receivingKey (zeros 3) with key := bytesK, ek := bytesK }) =
      some (bytesK, bytesK) := by decide

/-- A placed word is what the next step runs. -/
theorem test_withFetchWord :
    shows (step (State.reset.withFetchWord 8 0x70)) =
      some (.receivingPlaintext, 0, State.reset.events ++ [.rx 0x70]) := rfl

/-! ## Witnesses: for each statement with hypotheses, states and operands that meet them all

One clause of a witness meets one clause of its statement, at a boundary of its range. -/

/-- A key command complete but for its terminator. -/
def keyed : State := stateAt cfg16 .receivingKey payloadK

/-- A plaintext command complete but for its terminator. -/
def plain (cfg : Config) : State := stateAt cfg .receivingPlaintext payloadP

theorem witness_DecodeOfEncodeIsTheInstruction :
    (Instr.dataReceivingKeyFull 0xFF#8).wellFormed = true ∧
    (Instr.dataReceivingKeyFull 0xFF#8).runsIn (.step .receivingKey false) = true ∧
    (Instr.hexInvalid 0x67#8).wellFormed = true ∧ (Instr.hexInvalid 0x67#8).runsIn .hex = true ∧
    Instr.respTerm.wellFormed = true ∧ Instr.respTerm.runsIn .tx = true := by decide

theorem witness_EveryCharacterHasExactlyOneRow :
    (decode (.step .idle true) 0xFF#8 = .ok (.dataIdle 0xFF#8) ∧ (Instr.dataIdle 0xFF#8).wellFormed = true ∧
      (Instr.dataIdle 0xFF#8).runsIn (.step .idle true) = true ∧ encode (.dataIdle 0xFF#8) = 0xFF#8) ∧
    (decode .tx 0x46#8 = .ok .respHexF ∧ Instr.respHexF.wellFormed = true ∧ Instr.respHexF.runsIn .tx = true ∧
      encode .respHexF = 0x46#8) ∧
    Context.hex ≠ .tx := by decide

theorem witness_HexValHasTwentyTwoDigits :
    9 < 10 ∧ 5 < 6 ∧
    ∀ c ∈ [0x2F#8, 0x3A#8, 0x40#8, 0x47#8, 0x60#8, 0x67#8],
      ¬ (0x30 ≤ c.toNat ∧ c.toNat ≤ 0x39) ∧ ¬ (0x41 ≤ c.toNat ∧ c.toNat ≤ 0x46) ∧
      ¬ (0x61 ≤ c.toNat ∧ c.toNat ≤ 0x66) := by decide

theorem witness_DecodeComputesThePairs :
    2 * 16 ≤ payloadP.length ∧ hexDecode payloadP (2 * 16) = some bytesP ∧ 15 < 16 ∧
    hexVal (payloadP.getD (2 * 15) 0) = some 9 ∧ hexVal (payloadP.getD (2 * 15 + 1) 0) = some 10 ∧
    2 * 1 ≤ [0x47#8, 0x30#8].length ∧ (∃ c ∈ [0x47#8, 0x30#8].take (2 * 1), hexVal c = none) := by decide

theorem witness_EncodeOfDecodedPayloadUpperCasesIt :
    [0x64#8, 0x65#8].length = 2 * 1 ∧ hexDecode [0x64, 0x65] (2 * 1) = some [0xDE] ∧
    payloadP.length = 2 * 16 ∧ hexDecode payloadP (2 * 16) = some bytesP := by decide

theorem witness_CodecLengthsAreHalfAndDouble :
    32 ≤ payloadP.length ∧ 32 % 2 = 0 ∧ hexDecode payloadP 32 = some bytesP ∧ 16 ≤ bytesP.length := by decide

theorem witness_HexIsCaseInsensitiveInUpperCaseOut : 0x46#8 ∈ hexEncode [0x0F#8] 1 := by decide

theorem witness_HexRowsDeliverTheirValue :
    exec .hexFLower keyed = .next { keyed with nibbles := [some 15], trace := [.digit (some 15)] } := rfl

theorem witness_ResponseRowsTransmitTheirCharacter :
    exec .respHexF keyed = .next { keyed with trace := [.tx 0x46] } := rfl

theorem witness_EmittingAResponseRunsItsTransmitRows :
    charR ∈ responseFrame (Vector.replicate 16 0#8) ∧ 0x30#8 ∈ responseFrame (Vector.replicate 16 0#8) ∧
    charLf ∈ responseFrame (Vector.replicate 16 0#8) := by decide

theorem witness_CommandCharactersOverrideEveryState :
    exec .cmdK (stateAt cfg16 .receivingPlaintext (zeros 64)) =
      .next { stateAt cfg16 .receivingKey [] with trace := [.rewind, .goto .receivingKey] } := rfl

theorem witness_AbortIsIdempotent :
    ∃ t u, exec .cmdX (stateAt cfg16 .receivingKey (zeros 64)) = .next t ∧ exec .cmdX t = .next u := ⟨_, _, rfl, rfl⟩

theorem witness_DataWithRoomIsAppended :
    (stateAt cfg16 .receivingKey (zeros 63)).st = .receivingKey ∧
    (stateAt cfg16 .receivingKey (zeros 63)).ptr < bufLen cfg16 ∧
    (stateAt cfg16 .receivingPlaintext (zeros 63)).st = .receivingPlaintext ∧
    (stateAt cfg16 .receivingPlaintext (zeros 63)).ptr < bufLen cfg16 ∧
    classify 0xFF#8 = .data ∧ (Space.buf, 62) ≠ (.buf, 63) ∧ (Space.key, 63) ≠ (.buf, 63) := by decide

theorem witness_AppendWithoutRoomFaults : ¬ (stateAt cfg16 .receivingKey (zeros 64)).ptr < bufLen cfg16 := by decide

theorem witness_DataWithoutRoomDiscardsTheCommand :
    (stateAt cfg16 .receivingKey (zeros 64)).st = .receivingKey ∧
    ¬ (stateAt cfg16 .receivingKey (zeros 64)).ptr < bufLen cfg16 ∧
    (stateAt cfg16 .receivingPlaintext (zeros 64)).st = .receivingPlaintext ∧
    ¬ (stateAt cfg16 .receivingPlaintext (zeros 64)).ptr < bufLen cfg16 ∧ classify 0x30#8 = .data := by decide

theorem witness_IdleIgnoresTerminatorsAndData :
    (stateAt cfg16 .idle []).st = .idle ∧ classify 0x0D#8 = .term ∧ classify 0x0A#8 = .term ∧ classify 0x4B#8 = .data := by
  decide

theorem witness_KeyCompletionRekeysTheEngine :
    (keyed.ptr = keyDigits keyed.cfg ∧ hexDecode keyed.buf keyed.ptr = some bytesK) ∧
    ((stateAt (build 1 .off calNumbers) .receivingKey [0x66, 0x30]).ptr = keyDigits (build 1 .off calNumbers) ∧
      hexDecode [0x66, 0x30] 2 = some [0xF0]) := by decide

theorem witness_KeyCompletionDiscardsBadPayloads :
    (stateAt cfg16 .receivingKey (zeros 31)).ptr ≠ keyDigits cfg16 ∧
    (stateAt cfg16 .receivingKey (zeros 31 ++ [0x47])).ptr = keyDigits cfg16 ∧
    hexDecode (zeros 31 ++ [0x47]) 32 = none := by decide

theorem witness_PlaintextCompletionEncryptsAndAnswers :
    (plain cfg16).cfg.jitter = .off ∧ (plain cfg16).ptr = 32 ∧ hexDecode (plain cfg16).buf 32 = some bytesP := by decide

theorem witness_PlaintextCompletionWithJitterCalibratesOutsideTheBracket :
    (plain cfgJitter).cfg.jitter ≠ .off ∧ legal (plain cfgJitter).cfg = true ∧ (plain cfgJitter).ptr = 32 ∧
    hexDecode (plain cfgJitter).buf 32 = some bytesP := by decide

theorem witness_PlaintextCompletionDiscardsBadPayloads :
    (stateAt cfg16 .receivingPlaintext (zeros 33)).ptr ≠ 32 ∧
    (stateAt cfg16 .receivingPlaintext (zeros 31 ++ [0x67])).ptr = 32 ∧ hexDecode (zeros 31 ++ [0x67]) 32 = none := by decide

theorem witness_TerminatorsAlwaysReturnToIdle : (plain cfg16).trig = false := rfl

theorem witness_ShortKeyBuildsNeverEncrypt :
    (stateAt (build 7 .off calNumbers) .receivingPlaintext (zeros 28)).cfg.keyLength < 8 ∧
    (stateAt (build 7 .off calNumbers) .receivingPlaintext (zeros 28)).ptr ≤ bufLen (build 7 .off calNumbers) := by decide

theorem witness_TriggerSequenceHasItsEvents :
    (plain cfg16).cfg.jitter = .off ∧ (plain cfgJitter).cfg.jitter ≠ .off := by decide

theorem witness_EmitResponseSendsThirtyFourCharacters : payloadP.length = 32 := by decide

theorem witness_DrawsFillExactlyTheWindow :
    legal (plain cfgJitter).cfg = true ∧ (plain cfgJitter).cfg.jitter ≠ .off ∧
    calLo cfgJitter ≤ (96 : Nat) ∧ ((96 : Nat) : Int) ≤ calHi cfgJitter ∧
    calLo cfgJitter ≤ (104 : Nat) ∧ ((104 : Nat) : Int) ≤ calHi cfgJitter := by decide

theorem witness_DrawsReachNoDataAndNoResponse :
    ((plain cfgJitter).withRx [0x0A]).rst = none ∧
    ∃ t t', step ((plain cfgJitter).withRx [0x0A]) = .next t ∧
      step { (plain cfgJitter).withRx [0x0A] with rnd := [96], draws := 7 } = .next t' := ⟨rfl, _, _, rfl, rfl⟩

theorem witness_StepRunsTheDecodedInstruction :
    legal (keyed.withRx [0x0D, 0x0A]).cfg = true ∧ (keyed.withRx [0x0D, 0x0A]).rst = none ∧
    (keyed.withRx [0x0D, 0x0A]).rx = 0x0D#8 :: [0x0A] ∧
    decode (.step keyed.st keyed.hasRoom) 0x0D#8 = .ok .termCrReceivingKey := by decide

theorem witness_StepWaitsWhenNoCharacterCame :
    legal keyed.cfg = true ∧ keyed.rst = none ∧ keyed.rx = [] := by decide

theorem witness_LegalBuildsAlwaysStep :
    legal (plain cfgJitter).cfg = true ∧ legal (stateAt (build 1 .off calNumbers) .idle []).cfg = true := by decide

theorem witness_IllegalBuildsAreRefused :
    ¬ (1 ≤ (stateAt (build 0 .off calNumbers) .idle []).cfg.keyLength) ∧
    ¬ (0 ≤ calLo (stateAt (build 16 .centered { calNumbers with center := 2 }) .idle []).cfg) := by decide

theorem witness_StepTakesExactlyOneCharacter :
    (keyed.withRx [0x0A, 0x70]).rst = none ∧ (keyed.withRx [0x0A, 0x70]).rx = 0x0A#8 :: [0x70] ∧
    ∃ t, step (keyed.withRx [0x0A, 0x70]) = .next t := ⟨rfl, rfl, _, rfl⟩

theorem witness_StepSendsNothingOrOneWholeResponse :
    ((plain cfg16).withRx [0x0D]).rst = none ∧ ∃ t, step ((plain cfg16).withRx [0x0D]) = .next t ∧
      t.block = Config.enc cfg16.defaultKey (blockOfBytes bytesP) := by
  refine ⟨rfl, (((plain cfg16).withRx [0x0D]).act (.rx 0x0D)).plaintextComplete, rfl, ?_⟩
  rw [plaintextComplete_off (r := bytesP) (by decide) (by decide) rfl]
  rfl

theorem witness_KeysChangeOnlyByKeyCompletion :
    (keyed.withRx [0x0A]).rst = none ∧ ∃ t, step (keyed.withRx [0x0A]) = .next t ∧ t.key ≠ keyed.key := by
  refine ⟨rfl, ((keyed.withRx [0x0A]).act (.rx 0x0A)).keyComplete, rfl, by decide⟩

theorem witness_BlockChangesOnlyByPlaintextCompletion :
    ((plain cfg16).withRx [0x0A]).rst = none ∧ ∃ t, step ((plain cfg16).withRx [0x0A]) = .next t := ⟨rfl, _, rfl⟩

theorem witness_DiscardLeavesWhatAbortLeaves :
    (∀ s ∈ [stateAt cfg16 .receivingKey (zeros 64), stateAt cfg16 .receivingKey (zeros 31),
        stateAt cfg16 .receivingPlaintext (zeros 31 ++ [0x67])], s.nibbles = []) ∧
    (stateAt cfg16 .receivingKey (zeros 31)).ptr ≠ keyDigits cfg16 ∧
    hexDecode (stateAt cfg16 .receivingPlaintext (zeros 31 ++ [0x67])).buf 32 = none ∧
    (∃ t x, exec (.dataReceivingKeyFull 0x30) (stateAt cfg16 .receivingKey (zeros 64)) = .next t ∧
      exec .cmdX (stateAt cfg16 .receivingKey (zeros 64)) = .next x) ∧
    (∃ t x, exec .termCrReceivingKey (stateAt cfg16 .receivingKey (zeros 31)) = .next t ∧
      exec .cmdX (stateAt cfg16 .receivingKey (zeros 31)) = .next x) ∧
    (∃ t x, exec .termLfReceivingPlaintext (stateAt cfg16 .receivingPlaintext (zeros 31 ++ [0x67])) = .next t ∧
      exec .cmdX (stateAt cfg16 .receivingPlaintext (zeros 31 ++ [0x67])) = .next x) :=
  ⟨by decide, by decide, by decide, ⟨_, _, rfl, rfl⟩, ⟨_, _, rfl, rfl⟩, ⟨_, _, rfl, rfl⟩⟩

theorem witness_ResetBetweenStepsRestoresTheResetValues :
    legal ({ keyed with rst := some 0 } : State).cfg = true ∧ ({ keyed with rst := some 0 } : State).rst = some 0 := by
  decide

/-- A reset while the trigger line is high: 34 actions of the decode, the write of the block and the rise are done. -/
theorem witness_ResetInsideAStepAbandonsIt :
    legal ({ (plain cfg16).withRx [0x0A] with rst := some 37 } : State).cfg = true ∧
    ({ (plain cfg16).withRx [0x0A] with rst := some 37 } : State).rst = some 37 ∧
    ∃ u, serve { (plain cfg16).withRx [0x0A] with rst := some 37 } = .next u ∧
      (u.trace.take 37).getLast? = some (.drive true) := by
  refine ⟨by decide, rfl, _, rfl, ?_⟩
  rw [plaintextComplete_off (r := bytesP) (by decide) (by decide) rfl]
  rfl

theorem witness_ResetMeetsTheProtocolInvariant : legal cfg16 = true ∧ legal cfgJitter = true := by decide

theorem witness_StepKeepsTheProtocolInvariant :
    ProtocolInv ((plain cfgJitter).withRx [0x0A]) ∧ ∃ t, step ((plain cfgJitter).withRx [0x0A]) = .next t :=
  ⟨⟨by decide, by decide, rfl, rfl, fun _ => rfl, by decide, by decide, rfl⟩, _, rfl⟩

theorem witness_StepKeepsTheStoresWellFormed :
    Memory.wf (keyed.withRx [0x0A]) = true ∧ ∃ t, step (keyed.withRx [0x0A]) = .next t := ⟨by decide, _, rfl⟩

theorem witness_StepKeepsTheTriggerBracketed :
    NoResetInside ((plain cfg16).withRx [0x0A]) ∧ Bracketed ((plain cfg16).withRx [0x0A]).trace = true ∧
    ((plain cfg16).withRx [0x0A]).rst = none ∧ ∃ t, step ((plain cfg16).withRx [0x0A]) = .next t :=
  ⟨.inl rfl, rfl, rfl, _, rfl⟩

/-- A reset that lands while the trigger line is high. -/
theorem witness_EveryStepEndsOutsideTheBracket :
    bracketPhase ({ (plain cfg16).withRx [0x0A] with rst := some 37 } : State).trace .outside = some .outside ∧
    ∃ t, step { (plain cfg16).withRx [0x0A] with rst := some 37 } = .next t := by
  obtain ⟨t, -, h⟩ := step_some (s := { (plain cfg16).withRx [0x0A] with rst := some 37 }) (k := 37) (by decide) rfl
  exact ⟨rfl, _, h⟩

theorem witness_StepKeepsThePulsesBalanced :
    NoResetInside ((plain cfg16).withRx [0x0A]) ∧ PulsesBalanced ((plain cfg16).withRx [0x0A]).events ∧
    ∃ t, step ((plain cfg16).withRx [0x0A]) = .next t := ⟨.inl rfl, ⟨rfl, rfl, rfl, rfl⟩, _, rfl⟩

/-- At the last places of the buffer: 63 characters are there and one more comes. -/
theorem witness_FittingPayloadAccumulates :
    legal ((stateAt cfg16 .receivingKey (zeros 63)).withRx [0x66, 0x0A]).cfg = true ∧
    ((stateAt cfg16 .receivingKey (zeros 63)).withRx [0x66, 0x0A]).rst = none ∧
    ((stateAt cfg16 .receivingKey (zeros 63)).withRx [0x66, 0x0A]).st ≠ .idle ∧ (∀ c ∈ [0x66#8], classify c = .data) ∧
    (stateAt cfg16 .receivingKey (zeros 63)).ptr + [0x66#8].length ≤ bufLen cfg16 ∧
    ((stateAt cfg16 .receivingKey (zeros 63)).withRx [0x66, 0x0A]).rx = [0x66] ++ [0x0A] := by decide

theorem witness_KeyCommandRekeysFromAnyState :
    legal ((stateAt cfg16 .receivingPlaintext (zeros 4)).withRx (charK :: payloadK ++ 0x0A#8 :: [0x70])).cfg = true ∧
    ((stateAt cfg16 .receivingPlaintext (zeros 4)).withRx (charK :: payloadK ++ 0x0A#8 :: [0x70])).rst = none ∧
    payloadK.length = 2 * cfg16.keyLength ∧ (∀ c ∈ payloadK, isHexDigit c = true) ∧ classify 0x0A#8 = .term ∧
    ((stateAt cfg16 .receivingPlaintext (zeros 4)).withRx (charK :: payloadK ++ 0x0A#8 :: [0x70])).rx =
      charK :: payloadK ++ 0x0A#8 :: [0x70] := by decide

theorem witness_PlaintextCommandAnswersFromAnyState :
    legal ((stateAt (build 8 .off calNumbers) .idle []).withRx (charP :: payloadP ++ 0x0D#8 :: [])).cfg = true ∧
    ((stateAt (build 8 .off calNumbers) .idle []).withRx (charP :: payloadP ++ 0x0D#8 :: [])).rst = none ∧
    8 ≤ (build 8 .off calNumbers).keyLength ∧ payloadP.length = 32 ∧ (∀ c ∈ payloadP, isHexDigit c = true) ∧
    classify 0x0D#8 = .term ∧
    ((stateAt (build 8 .off calNumbers) .idle []).withRx (charP :: payloadP ++ 0x0D#8 :: [])).rx =
      charP :: payloadP ++ 0x0D#8 :: [] := by decide

theorem witness_OverlongPayloadAbortsTheCommand :
    legal ((stateAt cfg16 .idle []).withRx (charK :: zeros 65 ++ [])).cfg = true ∧
    ((stateAt cfg16 .idle []).withRx (charK :: zeros 65 ++ [])).rst = none ∧ (charK = charK ∨ charK = charP) ∧
    (zeros 65).length = bufLen cfg16 + 1 ∧ (∀ c ∈ zeros 65, classify c = .data) ∧
    ((stateAt cfg16 .idle []).withRx (charK :: zeros 65 ++ [])).rx = charK :: zeros 65 ++ [] := by decide

/-- KEY and BLOCK to their last byte, BUF up to the cursor, over it, and past the stores' ends. -/
theorem witness_MemReadReturnsTheBytesLowestFirst :
    Memory.wf keyed = true ∧ 15 + 1 ≤ keyed.size .key ∧ 0 + 16 ≤ keyed.size .block ∧ Space.key ≠ .buf ∧
    (31 + 1 ≤ keyed.size .buf ∧ 31 + 1 ≤ keyed.ptr) ∧
    (31 + 33 ≤ keyed.size .buf ∧ keyed.ptr < 31 + 33 ∧ 0 < 33) ∧
    ¬ 64 + 1 ≤ keyed.size .buf ∧ ¬ 17 + 0 ≤ keyed.size .key := by decide

theorem witness_MemWriteWritesExactlyItsBytes :
    Memory.wf keyed = true ∧ (15 + 1 ≤ keyed.size .block ∧ 0 < 1 ∧ Space.block ≠ .buf) ∧
    (31 + 2 ≤ keyed.size .buf ∧ 31 + 0 < keyed.ptr ∧ ¬ 31 + 1 < keyed.ptr) ∧
    ¬ (Space.buf = .buf ∧ 31 ≤ 30 ∧ 30 < 31 + 2) ∧ ¬ (Space.key = .buf ∧ 31 ≤ 31 ∧ 31 < 31 + 2) ∧
    ¬ 63 + 2 ≤ keyed.size .buf := by decide

theorem witness_StoreAccessesAreReadsAndWrites :
    Memory.wf (stateAt cfg16 .receivingKey (zeros 63)) = true ∧
    (stateAt cfg16 .receivingKey (zeros 63)).ptr < bufLen cfg16 := by decide

end Sys2Proof.Tests
end

section
/-! The Hex Codec (40_hex_codec.md): what `decode` says byte by byte and when it fails, that it undoes `encode`, and the
lengths of both results. -/

namespace Sys2Proof.Machine

/-- The byte `{hn, ln}` is `hn × 16 + ln` (40_hex_codec.md R102). -/
theorem joinNibbles_toNat (hn ln : Nibble) : (joinNibbles hn ln).toNat = hn.toNat * 16 + ln.toNat := by
  rw [joinNibbles, BitVec.toNat_append, ← Nat.shiftLeft_add_eq_or_of_lt ln.isLt, Nat.shiftLeft_eq]

/-- Pairing an even number of digits fails exactly at a digit with no value (40_hex_codec.md R102, R104). -/
theorem packDigits_eq_none_iff :
    ∀ {vs : List (Option Nibble)}, vs.length % 2 = 0 → (packDigits vs = none ↔ none ∈ vs)
  | [], _ => by simp
  | [_], h => by simp at h
  | h :: l :: rest, heven => by
    have hrest : packDigits rest = none ↔ none ∈ rest :=
      packDigits_eq_none_iff (by simp only [List.length_cons] at heven; omega)
    rw [packDigits_none_cons_iff, hrest, List.mem_cons, List.mem_cons, eq_comm (a := h), eq_comm (a := l)]

/-- Byte `j` of a successful pairing joins digits `2j` and `2j + 1`, the first of them high (40_hex_codec.md R102). -/
theorem packDigits_getElem? : ∀ {vs : List (Option Nibble)} {bytes : List Byte} {j : Nat},
    packDigits vs = some bytes → j < bytes.length →
    ∃ hn ln, vs[2 * j]? = some (some hn) ∧ vs[2 * j + 1]? = some (some ln) ∧ bytes[j]? = some (joinNibbles hn ln)
  | [], _, _, hp, hj => by rw [packDigits_nil] at hp; cases hp; cases hj
  | [_], _, _, hp, _ => by simp [packDigits] at hp
  | _ :: _ :: _, _, j, hp, hj => by
    obtain ⟨hn, ln, bs, rfl, rfl, hrest, rfl⟩ := packDigits_cons_some hp
    cases j with
    | zero => exact ⟨hn, ln, rfl, rfl, rfl⟩
    | succ j =>
      obtain ⟨hn', ln', hhigh, hlow, hbyte⟩ := packDigits_getElem? (j := j) hrest (by simpa using hj)
      exact ⟨hn', ln', hhigh, hlow, hbyte⟩

/-- The characters of encoded bytes pair back to those bytes (40_hex_codec.md R108). -/
theorem packDigits_encoded (b : List Byte) : packDigits ((b.flatMap encodeByte).map hexVal) = some b := by
  induction b with
  | nil => rfl
  | cons v vs ih => simp [encodeByte, hexVal_hexChar, packDigits_cons, ih, joinNibbles_split]

/-- `decode` of an even number of characters fails exactly when one it looks at is no hex digit
(40_hex_codec.md R102). -/
theorem hexDecode_eq_none_iff {ascii : List Byte} {n : Nat} (h : 2 * n ≤ ascii.length) :
    hexDecode ascii (2 * n) = none ↔ ∃ c ∈ ascii.take (2 * n), hexVal c = none := by
  rw [hexDecode, packDigits_eq_none_iff (by simp [h]), List.mem_map]

/-- A successful `decode` has looked at two characters a byte (40_hex_codec.md R110). -/
theorem hexDecode_length {ascii bytes : List Byte} {n : Nat} (h : n ≤ ascii.length)
    (hd : hexDecode ascii n = some bytes) : n = 2 * bytes.length := by
  simpa [h] using packDigits_length hd

/-- A digit that `decode` pairs is the value of the character at its place. -/
theorem hexVal_getD_of_digit {ascii : List Byte} {n i : Nat} {v : Option Nibble}
    (h : ((ascii.take n).map hexVal)[i]? = some v) : hexVal (ascii.getD i 0) = v := by
  rw [List.getElem?_map, Option.map_eq_some_iff] at h
  obtain ⟨c, hc, hv⟩ := h
  rw [List.getElem?_take, Option.ite_none_right_eq_some] at hc
  obtain ⟨-, hci⟩ := hc
  rw [List.getD_eq_getElem?_getD, hci, Option.getD_some, hv]

/-- Byte `j` of a successful `decode` joins the values of characters `2j` and `2j + 1`, which are hex digits
(40_hex_codec.md R102). -/
theorem hexDecode_getD {ascii bytes : List Byte} {n j : Nat} (hd : hexDecode ascii n = some bytes)
    (hj : j < bytes.length) :
    ∃ hn ln, hexVal (ascii.getD (2 * j) 0) = some hn ∧ hexVal (ascii.getD (2 * j + 1) 0) = some ln ∧
      bytes.getD j 0 = joinNibbles hn ln := by
  obtain ⟨hn, ln, hhigh, hlow, hbyte⟩ := packDigits_getElem? hd hj
  refine ⟨hn, ln, hexVal_getD_of_digit hhigh, hexVal_getD_of_digit hlow, ?_⟩
  rw [List.getD_eq_getElem?_getD, hbyte, Option.getD_some]

/-- `encode` gives two characters a byte (40_hex_codec.md R106, R110). -/
theorem hexEncode_length {bytes : List Byte} {n : Nat} (h : n ≤ bytes.length) : (hexEncode bytes n).length = 2 * n := by
  rw [hexEncode, flatMap_encodeByte_length, List.length_take_of_le h]

end Sys2Proof.Machine

namespace Sys2Proof.Proofs
open Sys2Proof.Machine

/-- Settles O5, from the failure condition, the length and the bytes of a pairing of digits. -/
theorem decodeComputesThePairs : Obligations.DecodeComputesThePairs := by
  intro ascii n h
  refine ⟨hexDecode_eq_none_iff h, fun bytes hd => ?_⟩
  have hlen : bytes.length = n := by have := hexDecode_length h hd; omega
  refine ⟨hlen, fun j hn ln hj hhigh hlow => ?_⟩
  obtain ⟨hn', ln', hhigh', hlow', hbyte⟩ := hexDecode_getD hd (hlen ▸ hj)
  obtain rfl : hn' = hn := Option.some.inj (hhigh'.symm.trans hhigh)
  obtain rfl : ln' = ln := Option.some.inj (hlow'.symm.trans hlow)
  rw [hbyte, joinNibbles_toNat]

/-- Settles O6: `encode` writes every byte, `decode` looks at all the characters, and they pair back to the bytes. -/
theorem decodeOfEncodedBytesIsTheBytes : Obligations.DecodeOfEncodedBytesIsTheBytes := by
  intro b
  rw [hexDecode, List.take_of_length_le (hexEncode_length le_rfl).le, hexEncode, List.take_length, packDigits_encoded]

/-- Settles O8, from the lengths of the two functions' results. -/
theorem codecLengthsAreHalfAndDouble : Obligations.CodecLengthsAreHalfAndDouble := by
  refine ⟨fun ascii bytes n h _ hd => ?_, fun bytes n h => hexEncode_length h⟩
  have := hexDecode_length h hd
  omega

end Sys2Proof.Proofs
end

section
/-! The Protocol State Machine (41_protocol_fsm.md): the command characters in every state, DATA where there is room, and
what `Idle` ignores.  What each row decodes from is its round trip (`Laws.RoundTrip`). -/

namespace Sys2Proof.Machine

/-- The capacity guard, where there is room (41_protocol_fsm.md R120). -/
theorem hasRoom_of_lt {s : State} (h : s.ptr < bufLen s.cfg) : s.hasRoom = true := decide_eq_true h

/-- A terminator is LF or CR (30_encoding.md R71). -/
theorem eq_lf_or_cr_of_term {c : Byte} (h : classify c = .term) : c = charLf ∨ c = charCr := by
  unfold classify at h
  split_ifs at h
  assumption

/-- Rewinding and entering a Protocol State touches the Capture Buffer, `st` and the record alone, and nothing is seen of
it (41_protocol_fsm.md R121 to R123, R138). -/
theorem rewind_goto_frame (s : State) (st : Protocol) :
    ∃ t, Host.Outcome.next (s.perform [.rewind, .goto st]) = (.next t : Host.Outcome State Fault Refusal) ∧
      t = { s with st := st, buf := [], trace := s.trace ++ [.rewind, .goto st] } ∧
      t.ptr = 0 ∧ t.events = s.events ∧ SameStore .key s t ∧ SameStore .block s t := by
  refine ⟨_, rfl, command_eq s st, rfl, ?_, sameStore_key rfl rfl, sameStore_block rfl rfl⟩
  rw [perform_events]
  exact List.append_nil _

/-- An append leaves every byte of every store but the one at the old cursor reading as before. -/
theorem readByte_append_frame {s t : State} {c : Byte} (hbuf : t.buf = s.buf ++ [c]) (hkey : t.key = s.key)
    (hblock : t.block = s.block) (hcfg : t.cfg = s.cfg) (sp : Space) (a : Nat) (hne : (sp, a) ≠ (.buf, s.ptr)) :
    t.readByte sp a = s.readByte sp a := by
  cases sp with
  | buf => exact readByte_append_old hbuf hcfg fun ha => hne (congrArg _ ha)
  | key => exact sameStore_key hkey hcfg a
  | block => exact sameStore_block hblock hcfg a

/-- An append with room, in the receiving state it stays in: the character at the old cursor, the cursor one further and
within the store, no event, and every other byte of every store as before (41_protocol_fsm.md R125, R128). -/
theorem appendChar_frame {s : State} {st : Protocol} (c : Byte) (hst : s.st = st) (hroom : s.ptr < bufLen s.cfg) :
    ∃ t, s.appendChar st c = .next t ∧
      t = { s with buf := s.buf ++ [c], trace := s.trace ++ [.append c, .goto s.st] } ∧
      t.ptr = s.ptr + 1 ∧ t.ptr ≤ bufLen t.cfg ∧ t.events = s.events ∧
      t.readByte .buf s.ptr = .ok c ∧
      ∀ sp a, (sp, a) ≠ (.buf, s.ptr) → t.readByte sp a = s.readByte sp a := by
  subst hst
  have hptr : (s.buf ++ [c]).length = s.ptr + 1 := List.length_append
  refine ⟨_, appendChar_room s.st c hroom, rfl, hptr, hptr.trans_le hroom, ?_, readByte_append_new rfl,
    readByte_append_frame rfl rfl rfl rfl⟩
  rw [events_eq rfl]
  exact List.append_nil _

/-- Staying in `Idle` leaves the state as it was but for the record (41_protocol_fsm.md R130, R131). -/
theorem goto_idle_of_idle {s : State} (h : s.st = .idle) :
    s.perform [.goto .idle] = { s with trace := s.trace ++ [.goto .idle] } := by
  rw [← h]
  rfl

end Sys2Proof.Machine

namespace Sys2Proof.Proofs
open Sys2Proof.Machine Sys2Proof.Laws

/-- Settles O16: both fit rows are an append, each in its own receiving state. -/
theorem dataWithRoomIsAppended : Obligations.DataWithRoomIsAppended := by
  refine List.forall_mem_cons.mpr ⟨fun c s hst hroom => ⟨fun hc => ?_, appendChar_frame c hst hroom⟩,
    List.forall_mem_singleton.mpr fun c s hst hroom => ⟨fun hc => ?_, appendChar_frame c hst hroom⟩⟩
  · exact RoundTrip.dataReceivingKeyFit c _ (decide_eq_true hc) (by rw [hst, hasRoom_of_lt hroom]; rfl)
  · exact RoundTrip.dataReceivingPlaintextFit c _ (decide_eq_true hc) (by rw [hst, hasRoom_of_lt hroom]; rfl)

/-- Settles O19: the three rows of `Idle` only stay in it, and a terminator is LF or CR. -/
theorem idleIgnoresTerminatorsAndData : Obligations.IdleIgnoresTerminatorsAndData := by
  intro s hst
  have hstay : Host.Outcome.next (s.perform [.goto .idle]) =
      (.next { s with trace := s.trace ++ [.goto .idle] } : Host.Outcome State Fault Refusal) :=
    congrArg _ (goto_idle_of_idle hst)
  refine ⟨List.forall_mem_cons.mpr ⟨hstay, List.forall_mem_singleton.mpr hstay⟩, fun _ => hstay, fun c hc => ?_⟩
  rw [hst]
  rcases hc with hdata | hterm
  · exact ⟨.dataIdle c, RoundTrip.dataIdle c _ (decide_eq_true hdata) rfl, by simp⟩
  · rcases eq_lf_or_cr_of_term hterm with rfl | rfl
    · exact ⟨.termLfIdle, RoundTrip.termLfIdle _ rfl rfl, by simp⟩
    · exact ⟨.termCrIdle, RoundTrip.termCrIdle _ rfl rfl, by simp⟩

/-- Settles O14: a command row runs in every state, and is a rewind and a new Protocol State. -/
theorem commandCharactersOverrideEveryState : Obligations.CommandCharactersOverrideEveryState :=
  List.forall_mem_cons.mpr ⟨fun s => ⟨RoundTrip.cmdX _ rfl rfl, rewind_goto_frame s .idle⟩,
    List.forall_mem_cons.mpr ⟨fun s => ⟨RoundTrip.cmdK _ rfl rfl, rewind_goto_frame s .receivingKey⟩,
      List.forall_mem_singleton.mpr fun s => ⟨RoundTrip.cmdP _ rfl rfl, rewind_goto_frame s .receivingPlaintext⟩⟩⟩

end Sys2Proof.Proofs
end

section
/-! The Trigger Controller's bracket (42_trigger_controller.md R167): bracketed records put together are bracketed, every
turn of the loop adds a bracketed record, and so does a reset between turns. -/

namespace Sys2Proof.Machine

/-- A bracketed record leaves no bracket open, so whatever follows it is judged alone. -/
theorem bracketed_append_eq {as : List Action} (bs : List Action) (h : Bracketed as = true) :
    Bracketed (as ++ bs) = Bracketed bs := by
  induction as using Bracketed.induct with
  | case1 => rfl
  | case2 _ _ rest ih => exact ih h
  | case3 => simp_all [Bracketed]
  | case4 => simp [Bracketed] at h
  | case5 a rest => simp_all [Bracketed]

theorem bracketed_append {as bs : List Action} (ha : Bracketed as = true) (hb : Bracketed bs = true) :
    Bracketed (as ++ bs) = true := (bracketed_append_eq bs ha).trans hb

/-- Actions that the bracket ignores one by one, it ignores together. -/
theorem bracketed_map {α : Type} {f : α → Action} (hf : ∀ x rest, Bracketed (f x :: rest) = Bracketed rest)
    (xs : List α) : Bracketed (xs.map f) = true := by
  induction xs with
  | nil => rfl
  | cons x xs ih => rw [List.map_cons, hf, ih]

theorem bracketed_decodeActions (payload : List Byte) : Bracketed (decodeActions payload) = true :=
  bracketed_append (as := .decodeCall :: payload.map fun c => .digit (hexVal c))
    (bracketed_map (fun _ _ => rfl) payload) rfl

theorem bracketed_respondActions (b : Block) : Bracketed (respondActions b) = true :=
  bracketed_append (as := .encodeCall :: (responseFrame b).map .tx) (bracketed_map (fun _ _ => rfl) _) rfl

/-- `KeyComplete` on a payload that decodes adds no rise, encryption or fall (41_protocol_fsm.md R132). -/
theorem keyComplete_adds_bracketed {s : State} {r : List Byte} (hp : s.ptr = keyDigits s.cfg)
    (hd : packDigits (s.buf.map hexVal) = some r) :
    ∃ as, Bracketed as = true ∧ s.keyComplete.trace = s.trace ++ as ∧ s.keyComplete.rst = s.rst := by
  rw [keyComplete_ok hp hd]
  refine ⟨decodeActions s.buf ++ [.writeKey r, .engSetKey r, .rewind, .goto .idle],
    bracketed_append (bracketed_decodeActions _) rfl, ?_, rfl⟩
  simp [decodeActions]

/-- `PlaintextComplete` on a payload that decodes adds one whole bracket, and what stands before and after it, the
calibration writes and delays of a jitter build too, stays outside (41_protocol_fsm.md R133, 42_trigger_controller.md R161). -/
theorem plaintextComplete_adds_bracketed {s : State} {r : List Byte} (hp : s.ptr = blockDigits)
    (hd : packDigits (s.buf.map hexVal) = some r) :
    ∃ as, Bracketed as = true ∧ s.plaintextComplete.trace = s.trace ++ as ∧ s.plaintextComplete.rst = s.rst := by
  have hbefore := bracketed_decodeActions s.buf
  have hafter := bracketed_respondActions (Config.enc s.ek (blockOfBytes r))
  by_cases hj : s.cfg.jitter = .off
  · rw [plaintextComplete_off hp hd hj]
    refine ⟨decodeActions s.buf ++ ((.writeBlock (blockOfBytes r) :: bracketActions s.ek (blockOfBytes r)) ++
      respondActions _), bracketed_append hbefore (bracketed_append rfl hafter), ?_, rfl⟩
    simp
  · rw [plaintextComplete_on hp hd hj]
    refine ⟨decodeActions s.buf ++ ((.writeBlock (blockOfBytes r) ::
      [.delay .settlePre, .sample s.nextDraw, .writeCal s.nextDraw, .delay .settlePost] ++
      bracketActions s.ek (blockOfBytes r) ++ [.writeCal s.cfg.cal.nominalCal, .delay .restore]) ++
      respondActions _), bracketed_append hbefore (bracketed_append rfl hafter), ?_, rfl⟩
    simp

/-- Every turn of the loop adds a bracketed record, and leaves the reset request as it was. -/
theorem Turn.adds_bracketed {s t : State} {c : Byte} (h : Turn s c t) :
    ∃ as, Bracketed as = true ∧ t.trace = s.trace ++ as ∧ t.rst = s.rst := by
  cases h with
  | command st _ ht => subst ht; exact ⟨_, rfl, rfl, rfl⟩
  | ignored _ _ ht => subst ht; exact ⟨_, rfl, rfl, rfl⟩
  | append _ _ _ ht => subst ht; exact ⟨_, rfl, rfl, rfl⟩
  | overflow _ _ _ ht => rw [ht, discard_eq]; exact ⟨_, rfl, rfl, rfl⟩
  | badLength _ _ ht => rw [ht, discard_eq]; exact ⟨_, rfl, rfl, rfl⟩
  | invalid _ _ _ ht =>
    rw [ht, discard_eq, decodePayload_eq]
    refine ⟨decodeActions s.buf ++ [.raise .invalidHexDigit, .rewind, .goto .idle],
      bracketed_append (bracketed_decodeActions _) rfl, ?_, rfl⟩
    simp [decodeActions]
  | keyed _ _ hp r hd ht => exact ht ▸ keyComplete_adds_bracketed hp hd
  | answered _ _ hp r hd ht => exact ht ▸ plaintextComplete_adds_bracketed hp hd

/-- A reset that lets none of the turn's actions complete is a reset of the state before it. -/
theorem cutAt_zero (s t : State) : s.cutAt t 0 = s := rfl

/-- A step with no reset inside adds a bracketed record, and leaves no reset request where none was pending. -/
theorem step_adds_bracketed {s t : State} (hin : NoResetInside s) (h : step s = .next t) :
    ∃ as, Bracketed as = true ∧ t.trace = s.trace ++ as ∧ (s.rst = none → t.rst = none) := by
  obtain ⟨-, ⟨-, -, rfl⟩ | ⟨-, c, -, -, hturn⟩ | ⟨k, u, hk, -, rfl⟩⟩ := step_cases h
  · exact ⟨[], rfl, (List.append_nil _).symm, id⟩
  · obtain ⟨as, hb, htrace, hrst⟩ := hturn.adds_bracketed
    exact ⟨.rx c :: as, hb, by simp [htrace], fun hnone => hrst.trans hnone⟩
  · obtain rfl : k = 0 := by simpa [NoResetInside, hk] using hin
    rw [cutAt_zero, resetNow_eq]
    exact ⟨resetActions s.cfg, rfl, rfl, fun _ => rfl⟩

end Sys2Proof.Machine

namespace Sys2Proof.Proofs
open Sys2Proof.Machine

/-- Settles O46: the reset sequence never touches the bracket, and a step only adds a bracketed record. -/
theorem stepKeepsTheTriggerBracketed : Obligations.StepKeepsTheTriggerBracketed := by
  refine ⟨fun _ => rfl, fun s t hin hb h => ?_⟩
  obtain ⟨as, has, htrace, hrst⟩ := step_adds_bracketed hin h
  exact ⟨htrace ▸ bracketed_append hb has, hrst⟩

end Sys2Proof.Proofs
end

section
/-! The decoder and the encoder (30_encoding.md sections 6 and 7): the round trip over all rows, and that what is read
is a row of its table with the character read. -/

namespace Sys2Proof.Laws
open Sys2Proof.Machine

/-- Every row's round trip. -/
theorem roundTrip : ∀ i : Instr, RoundTrip.Statement i
  | .cmdX => RoundTrip.cmdX
  | .cmdK => RoundTrip.cmdK
  | .cmdP => RoundTrip.cmdP
  | .termLfReceivingKey => RoundTrip.termLfReceivingKey
  | .termCrReceivingKey => RoundTrip.termCrReceivingKey
  | .termLfReceivingPlaintext => RoundTrip.termLfReceivingPlaintext
  | .termCrReceivingPlaintext => RoundTrip.termCrReceivingPlaintext
  | .termLfIdle => RoundTrip.termLfIdle
  | .termCrIdle => RoundTrip.termCrIdle
  | .dataReceivingKeyFit c => RoundTrip.dataReceivingKeyFit c
  | .dataReceivingKeyFull c => RoundTrip.dataReceivingKeyFull c
  | .dataReceivingPlaintextFit c => RoundTrip.dataReceivingPlaintextFit c
  | .dataReceivingPlaintextFull c => RoundTrip.dataReceivingPlaintextFull c
  | .dataIdle c => RoundTrip.dataIdle c
  | .hex0 => RoundTrip.hex0 | .hex1 => RoundTrip.hex1 | .hex2 => RoundTrip.hex2 | .hex3 => RoundTrip.hex3
  | .hex4 => RoundTrip.hex4 | .hex5 => RoundTrip.hex5 | .hex6 => RoundTrip.hex6 | .hex7 => RoundTrip.hex7
  | .hex8 => RoundTrip.hex8 | .hex9 => RoundTrip.hex9
  | .hexAUpper => RoundTrip.hexAUpper | .hexBUpper => RoundTrip.hexBUpper | .hexCUpper => RoundTrip.hexCUpper
  | .hexDUpper => RoundTrip.hexDUpper | .hexEUpper => RoundTrip.hexEUpper | .hexFUpper => RoundTrip.hexFUpper
  | .hexALower => RoundTrip.hexALower | .hexBLower => RoundTrip.hexBLower | .hexCLower => RoundTrip.hexCLower
  | .hexDLower => RoundTrip.hexDLower | .hexELower => RoundTrip.hexELower | .hexFLower => RoundTrip.hexFLower
  | .hexInvalid c => RoundTrip.hexInvalid c
  | .respLead => RoundTrip.respLead
  | .respHex0 => RoundTrip.respHex0 | .respHex1 => RoundTrip.respHex1 | .respHex2 => RoundTrip.respHex2
  | .respHex3 => RoundTrip.respHex3 | .respHex4 => RoundTrip.respHex4 | .respHex5 => RoundTrip.respHex5
  | .respHex6 => RoundTrip.respHex6 | .respHex7 => RoundTrip.respHex7 | .respHex8 => RoundTrip.respHex8
  | .respHex9 => RoundTrip.respHex9 | .respHexA => RoundTrip.respHexA | .respHexB => RoundTrip.respHexB
  | .respHexC => RoundTrip.respHexC | .respHexD => RoundTrip.respHexD | .respHexE => RoundTrip.respHexE
  | .respHexF => RoundTrip.respHexF
  | .respTerm => RoundTrip.respTerm

/-- The five characters with a meaning of their own, and DATA (30_encoding.md R71). -/
theorem char_cases (c : Byte) :
    c = charX ∨ c = charK ∨ c = charP ∨ c = charLf ∨ c = charCr ∨ classify c = .data := by
  unfold classify
  split_ifs <;> simp_all

/-- `i` is a row that character `c` stands for in context `ctx`. -/
def IsRowOf (ctx : Context) (c : Byte) (i : Instr) : Prop :=
  i.wellFormed = true ∧ i.runsIn ctx = true ∧ encode i = c

theorem decodeStep_isRow (st : Protocol) (room : Bool) (c : Byte) :
    IsRowOf (.step st room) c (decodeStep st room c) := by
  rcases char_cases c with rfl | rfl | rfl | rfl | rfl | hdata
  case inr.inr.inr.inr.inr =>
    simp only [decodeStep, hdata]
    cases st <;> cases room <;> exact ⟨decide_eq_true hdata, rfl, rfl⟩
  all_goals cases st <;> exact ⟨rfl, rfl, rfl⟩

/-- No character but the 22 digits has a HexVal (30_encoding.md R73). -/
theorem hexVal_eq_none {c : Byte} (h0 : ¬ (0x30 ≤ c.toNat ∧ c.toNat ≤ 0x39)) (hA : ¬ (0x41 ≤ c.toNat ∧ c.toNat ≤ 0x46))
    (ha : ¬ (0x61 ≤ c.toNat ∧ c.toNat ≤ 0x66)) : hexVal c = none := by
  simp only [hexVal, if_neg h0, if_neg hA, if_neg ha]

theorem decodeHex_isRow (c : Byte) : IsRowOf .hex c (decodeHex c) := by
  unfold decodeHex
  split
  case h_23 =>
    simp only [imp_false] at *
    exact ⟨decide_eq_true (hexVal_eq_none (by omega) (by omega) (by omega)), rfl, rfl⟩
  all_goals exact ⟨rfl, rfl, (BitVec.eq_of_toNat_eq ‹c.toNat = _›).symm⟩

theorem decodeTx_isRow {c : Byte} {i : Instr} (h : decodeTx c = .ok i) : IsRowOf .tx c i := by
  unfold decodeTx at h
  split at h
  case h_19 => cases h
  all_goals
    cases h
    exact ⟨rfl, rfl, (BitVec.eq_of_toNat_eq ‹c.toNat = _›).symm⟩

/-- What is read in a context is a row for that character there. -/
theorem decode_isRow {ctx : Context} {c : Byte} {i : Instr} (h : decode ctx c = .ok i) : IsRowOf ctx c i := by
  cases ctx with
  | step st room => cases h; exact decodeStep_isRow st room c
  | hex => cases h; exact decodeHex_isRow c
  | tx => exact decodeTx_isRow h

/-- A character has one row at most, because the row decides what the character decodes to. -/
theorem isRow_unique {ctx : Context} {c : Byte} {i j : Instr} (h : decode ctx c = .ok i) (hj : IsRowOf ctx c j) :
    j = i := by
  obtain ⟨hw, hr, rfl⟩ := hj
  exact Except.ok.inj ((roundTrip j ctx hw hr).symm.trans h)

end Sys2Proof.Laws

namespace Sys2Proof.Proofs
open Sys2Proof.Machine Sys2Proof.Laws

/-- Settles O2, row by row. -/
theorem decodeOfEncodeIsTheInstruction : Obligations.DecodeOfEncodeIsTheInstruction := roundTrip

/-- Settles O3: the three tables give rows of their own, and the round trip leaves no second one. -/
theorem everyCharacterHasExactlyOneRow : Obligations.EveryCharacterHasExactlyOneRow := by
  refine ⟨fun ctx c i h => ?_, fun ctx c hctx => ?_⟩
  · obtain ⟨hw, hr, he⟩ := decode_isRow h
    exact ⟨hw, hr, he, fun j hjw hjr hje => isRow_unique h ⟨hjw, hjr, hje⟩⟩
  · cases ctx with
    | step st room => exact ⟨_, rfl⟩
    | hex => exact ⟨_, rfl⟩
    | tx => exact absurd rfl hctx

/-- Settles O1: the command characters decode so in every Protocol State, the others each in its own context. -/
theorem charactersDecodeToTheirRows : Obligations.CharactersDecodeToTheirRows :=
  ⟨fun _ _ => rfl, fun _ _ => rfl, fun _ _ => rfl, fun _ => rfl, fun _ => rfl, rfl, rfl, rfl, rfl, rfl, rfl, rfl⟩

end Sys2Proof.Proofs
end

section
/-! What a turn of the loop leaves, in three cases: a turn that only moves `st` and the cursor and shows nothing, a key
completion, a plaintext completion.  Then the protocol invariant (41_protocol_fsm.md R136) and the pulse counts
(42_trigger_controller.md R168). -/

namespace Sys2Proof.Machine

/-- `JitterBefore()` as actions: none with JITTER Off (42_trigger_controller.md R161, R164). -/
def calibrateActions (s : State) : List Action :=
  if s.cfg.jitter = .off then [] else [.delay .settlePre, .sample s.nextDraw, .writeCal s.nextDraw, .delay .settlePost]

/-- `JitterAfter()` as actions: none with JITTER Off (42_trigger_controller.md R161, R166). -/
def restoreActions (cfg : Config) : List Action :=
  if cfg.jitter = .off then [] else [.writeCal cfg.cal.nominalCal, .delay .restore]

/-- A successful plaintext completion, whatever the jitter option: the block encrypted, the line low, the calibration
nominal where it was written, Idle (41_protocol_fsm.md R133). -/
theorem plaintextComplete_answer {s : State} {r : List Byte} (hp : s.ptr = blockDigits)
    (hd : packDigits (s.buf.map hexVal) = some r) :
    ∃ cal rnd draws, cal = (if s.cfg.jitter = .off then s.cal else s.cfg.cal.nominalCal) ∧
      s.plaintextComplete = { s with
        st := .idle, buf := [], block := Config.enc s.ek (blockOfBytes r), trig := false, cal := cal, rnd := rnd
        draws := draws, nibbles := []
        trace := s.trace ++ (decodeActions s.buf ++ .writeBlock (blockOfBytes r) :: calibrateActions s
          ++ bracketActions s.ek (blockOfBytes r) ++ restoreActions s.cfg
          ++ respondActions (Config.enc s.ek (blockOfBytes r))) } := by
  by_cases hj : s.cfg.jitter = .off
  · refine ⟨s.cal, s.rnd, s.draws, (if_pos hj).symm, ?_⟩
    rw [plaintextComplete_off hp hd hj]
    simp [calibrateActions, restoreActions, hj]
  · refine ⟨s.cfg.cal.nominalCal, s.rnd.tail, s.draws + 1, (if_neg hj).symm, ?_⟩
    rw [plaintextComplete_on hp hd hj]
    simp [calibrateActions, restoreActions, hj]

/-- The turns that are no completion, or one that fails a check: they move `st`, the cursor and
the decode in progress, and show nothing. -/
structure QuietTurn (s t : State) : Prop where
  frame : t = { s with st := t.st, buf := t.buf, nibbles := t.nibbles, trace := t.trace }
  events : t.events = s.events

/-- A condition raised is seen by no one (60_exceptions.md R205). -/
theorem quietTurn_discard (s : State) (cond : Condition) : QuietTurn s (s.discard cond) := by
  rw [discard_eq]
  exact ⟨rfl, by simp [State.events, eventOf]⟩

theorem discard_invalid_eq (s : State) :
    (s.decodePayload.act .decodeReturn).discard .invalidHexDigit = { s with
      st := .idle, buf := [], nibbles := []
      trace := s.trace ++ decodeActions s.buf ++ [.raise .invalidHexDigit, .rewind, .goto .idle] } := by
  rw [discard_eq, decodePayload_eq]
  apply state_ext <;> simp [decodeActions]

theorem quietTurn_invalid (s : State) :
    QuietTurn s ((s.decodePayload.act .decodeReturn).discard .invalidHexDigit) := by
  rw [discard_invalid_eq]
  exact ⟨rfl, by simp [State.events, eventOf]⟩

/-- Every turn is quiet or a successful completion of its command. -/
theorem Turn.quiet_or_completes {s t : State} {c : Byte} (h : Turn s c t) :
    QuietTurn s t ∨ (classify c = .term ∧ ∃ r, packDigits (s.buf.map hexVal) = some r ∧
      ((s.st = .receivingKey ∧ s.ptr = keyDigits s.cfg ∧ t = s.keyComplete) ∨
       (s.st = .receivingPlaintext ∧ s.ptr = blockDigits ∧ t = s.plaintextComplete))) := by
  cases h with
  | command st _ ht => subst ht; exact .inl ⟨rfl, by simp [State.events, eventOf]⟩
  | ignored _ _ ht => subst ht; exact .inl ⟨rfl, by simp [State.events, eventOf]⟩
  | append _ _ _ ht => subst ht; exact .inl ⟨rfl, by simp [State.events, eventOf]⟩
  | overflow _ _ _ ht => exact .inl (ht ▸ quietTurn_discard s _)
  | badLength _ _ ht => exact .inl (ht ▸ quietTurn_discard s _)
  | invalid _ _ _ ht => exact .inl (ht ▸ quietTurn_invalid s)
  | keyed hst hc hp r hd ht => exact .inr ⟨hc, r, hd, .inl ⟨hst, hp, ht⟩⟩
  | answered hst hc hp r hd ht => exact .inr ⟨hc, r, hd, .inr ⟨hst, hp, ht⟩⟩

/-! ### The protocol invariant -/

/-- With an empty Capture Buffer the invariant is about the line, the keys, the calibration and the decode alone. -/
theorem protocolInv_of_empty {t : State} (hbuf : t.buf = []) (htrig : t.trig = false) (hkey : t.key = t.ek)
    (hcal : t.cfg.jitter ≠ .off → t.cal = t.cfg.cal.nominalCal) (hlen : t.key.length = t.cfg.keyLength)
    (hnib : t.nibbles = []) : ProtocolInv t where
  ptr_le := by simp [hbuf]
  idle_empty _ := by simp [hbuf]
  trig_low := htrig
  key_eq_ek := hkey
  cal_nominal := hcal
  buf_data := by simp [hbuf]
  key_length := hlen
  nibbles_empty := hnib

/-- A rewind keeps the invariant, whatever Protocol State follows it. -/
theorem ProtocolInv.rewound {s : State} (h : ProtocolInv s) (st : Protocol) (trace : List Action) :
    ProtocolInv { s with st := st, buf := [], trace := trace } :=
  protocolInv_of_empty rfl h.trig_low h.key_eq_ek h.cal_nominal h.key_length h.nibbles_empty

theorem ProtocolInv.received {s : State} (h : ProtocolInv s) (c : Byte) : ProtocolInv (s.act (.rx c)) :=
  ⟨h.ptr_le, h.idle_empty, h.trig_low, h.key_eq_ek, h.cal_nominal, h.buf_data, h.key_length, h.nibbles_empty⟩

theorem legal_key_length {cfg : Config} (h : legal cfg = true) : cfg.defaultKey.length = cfg.keyLength := by
  simp only [legal, Bool.and_eq_true, decide_eq_true_eq] at h
  obtain ⟨⟨-, hlen⟩, -⟩ := h
  exact hlen

theorem protocolInv_resetNow {s : State} (h : legal s.cfg = true) : ProtocolInv s.resetNow := by
  rw [resetNow_eq]
  exact protocolInv_of_empty rfl rfl rfl (fun _ => rfl) (legal_key_length h) rfl

/-- Every turn keeps the protocol invariant (41_protocol_fsm.md R136). -/
theorem Turn.keeps_protocolInv {s t : State} {c : Byte} (h : Turn s c t) (hinv : ProtocolInv s) : ProtocolInv t := by
  cases h with
  | command st _ ht => exact ht ▸ hinv.rewound st _
  | ignored hst _ ht =>
    subst ht
    exact ⟨hinv.ptr_le, fun _ => hinv.idle_empty hst, hinv.trig_low, hinv.key_eq_ek, hinv.cal_nominal, hinv.buf_data,
      hinv.key_length, hinv.nibbles_empty⟩
  | append hst hc hroom ht =>
    subst ht
    refine ⟨?_, fun hidle => absurd hidle hst, hinv.trig_low, hinv.key_eq_ek, hinv.cal_nominal, ?_, hinv.key_length,
      hinv.nibbles_empty⟩
    · simpa using hroom
    · simpa [or_imp, forall_and, hc] using hinv.buf_data
  | overflow _ _ _ ht => rw [ht, discard_eq]; exact hinv.rewound _ _
  | badLength _ _ ht => rw [ht, discard_eq]; exact hinv.rewound _ _
  | invalid _ _ _ ht => 
    rw [ht, discard_invalid_eq]
    exact protocolInv_of_empty rfl hinv.trig_low hinv.key_eq_ek hinv.cal_nominal hinv.key_length rfl
  | keyed _ _ hp r hd ht =>
    have hlen := keyBytes_length hp hd
    rw [ht, keyComplete_ok hp hd]
    exact protocolInv_of_empty rfl hinv.trig_low rfl hinv.cal_nominal hlen rfl
  | answered _ _ hp r hd ht =>
    obtain ⟨cal, rnd, draws, hcal, heq⟩ := plaintextComplete_answer hp hd
    rw [ht, heq]
    exact protocolInv_of_empty rfl rfl hinv.key_eq_ek (fun hj => hcal.trans (if_neg hj)) hinv.key_length rfl

/-! ### The pulse counts -/

theorem PulsesBalanced.append {es es' : List Event} (h : PulsesBalanced es) (h' : PulsesBalanced es') :
    PulsesBalanced (es ++ es') := by
  obtain ⟨hfall, henc, hlead, hterm⟩ := h
  obtain ⟨hfall', henc', hlead', hterm'⟩ := h'
  simp only [PulsesBalanced, List.count_append, List.countP_append]
  omega

/-- A response has one lead character and one LF: the digits between them are neither (30_encoding.md R76). -/
theorem responseFrame_count (b : Block) : (responseFrame b).count charR = 1 ∧ (responseFrame b).count charLf = 1 := by
  have hdigit : ∀ c ∈ hexEncode b.toList 16, c ≠ charR ∧ c ≠ charLf :=
    fun c hc => upperHex_ne_frame c (hexEncode_upper _ _ c hc)
  have hr : (hexEncode b.toList 16).count charR = 0 := List.count_eq_zero.mpr fun h => (hdigit _ h).1 rfl
  have hlf : (hexEncode b.toList 16).count charLf = 0 := List.count_eq_zero.mpr fun h => (hdigit _ h).2 rfl
  constructor
  · rw [responseFrame, List.cons_append, List.count_cons_self, List.count_append, hr]; rfl
  · rw [responseFrame, List.cons_append, List.count_cons_of_ne (by decide), List.count_append, hlf]; rfl

theorem calibrateActions_events (s : State) :
    (calibrateActions s).filterMap eventOf =
      if s.cfg.jitter = .off then [] else [.delay .settlePre, .cal s.nextDraw, .delay .settlePost] := by
  unfold calibrateActions
  split <;> rfl

theorem restoreActions_events (cfg : Config) :
    (restoreActions cfg).filterMap eventOf =
      if cfg.jitter = .off then [] else [.cal cfg.cal.nominalCal, .delay .restore] := by
  unfold restoreActions
  split <;> rfl

/-- The events of a successful plaintext completion (41_protocol_fsm.md R133, 42_trigger_controller.md R161). -/
theorem plaintextComplete_events {s : State} {r : List Byte} (hp : s.ptr = blockDigits)
    (hd : packDigits (s.buf.map hexVal) = some r) :
    s.plaintextComplete.events = s.events ++ ((calibrateActions s).filterMap eventOf
      ++ [.trig true, .engEncrypt (blockOfBytes r) (Config.enc s.ek (blockOfBytes r)), .trig false]
      ++ (restoreActions s.cfg).filterMap eventOf
      ++ (responseFrame (Config.enc s.ek (blockOfBytes r))).map .tx) := by
  obtain ⟨_, _, _, -, heq⟩ := plaintextComplete_answer hp hd
  rw [heq, events_eq rfl]
  simp [List.filterMap_cons, eventOf]

theorem keyComplete_events {s : State} {r : List Byte} (hp : s.ptr = keyDigits s.cfg)
    (hd : packDigits (s.buf.map hexVal) = some r) : s.keyComplete.events = s.events ++ [.engSetKey r] := by
  have htrace : s.keyComplete.trace =
      s.trace ++ (decodeActions s.buf ++ [.writeKey r, .engSetKey r, .rewind, .goto .idle]) := by
    rw [keyComplete_ok hp hd]
    simp [decodeActions]
  rw [events_eq htrace]
  simp [List.filterMap_cons, eventOf]

/-- One bracket and one response: what a successful plaintext completion shows is balanced. -/
theorem plaintextComplete_adds_balanced (s : State) (b b' : Block) :
    PulsesBalanced ((calibrateActions s).filterMap eventOf ++ [.trig true, .engEncrypt b b', .trig false]
      ++ (restoreActions s.cfg).filterMap eventOf ++ (responseFrame b').map .tx) := by
  obtain ⟨hlead, hterm⟩ := responseFrame_count b'
  have htx : ∀ c, ((responseFrame b').map Event.tx).count (.tx c) = (responseFrame b').count c :=
    List.count_map_of_injective _ _ fun _ _ => Event.tx.inj
  have htrig : ∀ high, ((responseFrame b').map Event.tx).count (.trig high) = 0 := fun high =>
    List.count_eq_zero.mpr (by simp)
  have henc : ((responseFrame b').map Event.tx).countP Event.isEncrypt = 0 :=
    List.countP_eq_zero.mpr (by simp [Event.isEncrypt])
  rw [calibrateActions_events, restoreActions_events]
  split <;> simp [PulsesBalanced, List.countP_cons, Event.isEncrypt, htx, htrig, henc, hlead, hterm]

/-- Every turn adds as many rises, falls, encryptions and responses (42_trigger_controller.md R168). -/
theorem Turn.adds_balanced {s t : State} {c : Byte} (h : Turn s c t) :
    ∃ es, t.events = s.events ++ es ∧ PulsesBalanced es := by
  obtain hquiet | ⟨-, r, hd, ⟨-, hp, rfl⟩ | ⟨-, hp, rfl⟩⟩ := h.quiet_or_completes
  · exact ⟨[], by rw [hquiet.events, List.append_nil], rfl, rfl, rfl, rfl⟩
  · exact ⟨_, keyComplete_events hp hd, rfl, rfl, rfl, rfl⟩
  · exact ⟨_, plaintextComplete_events hp hd, plaintextComplete_adds_balanced s _ _⟩

theorem received_events (s : State) (c : Byte) : (s.act (.rx c)).events = s.events ++ [.rx c] :=
  perform_events s [.rx c]

theorem resetNow_events (s : State) : s.resetNow.events = s.events ++ [.engInit, .engSetKey s.cfg.defaultKey] :=
  perform_events s (resetActions s.cfg)

end Sys2Proof.Machine

namespace Sys2Proof.Proofs
open Sys2Proof.Machine

/-- Settles O43: a legal build's DEFAULT_KEY has KEY_LENGTH bytes, and the rest of the invariant is the reset table. -/
theorem resetMeetsTheProtocolInvariant : Obligations.ResetMeetsTheProtocolInvariant :=
  fun _ hl => protocolInv_of_empty rfl rfl rfl (fun _ => rfl) (legal_key_length hl) rfl

/-- Settles O44: a turn keeps the invariant, and a reset establishes it whatever it found. -/
theorem stepKeepsTheProtocolInvariant : Obligations.StepKeepsTheProtocolInvariant := by
  intro s t hinv h
  obtain ⟨hl, ⟨-, -, rfl⟩ | ⟨-, c, -, -, hturn⟩ | ⟨k, u, -, -, rfl⟩⟩ := step_cases h
  · exact hinv
  · exact hturn.keeps_protocolInv (hinv.received c)
  · exact protocolInv_resetNow (by rwa [State.cutAt, perform_cfg])

/-- Settles O48: a turn adds equally many of each, and receiving and reset add none. -/
theorem stepKeepsThePulsesBalanced : Obligations.StepKeepsThePulsesBalanced := by
  refine ⟨fun _ => ⟨rfl, rfl, rfl, rfl⟩, fun s t hin hb h => ?_⟩
  obtain ⟨-, ⟨-, -, rfl⟩ | ⟨-, c, -, -, hturn⟩ | ⟨k, u, hk, -, rfl⟩⟩ := step_cases h
  · exact hb
  · obtain ⟨es, hes, hbal⟩ := hturn.adds_balanced
    rw [hes, received_events]
    exact (hb.append ⟨rfl, rfl, rfl, rfl⟩).append hbal
  · obtain rfl : k = 0 := by simpa [NoResetInside, hk] using hin
    rw [cutAt_zero, resetNow_events]
    exact hb.append ⟨rfl, rfl, rfl, rfl⟩

end Sys2Proof.Proofs
end

section
/-! What a step takes, shows and changes (41_protocol_fsm.md section 7), which builds step (00_scope.md R13), and the
steps that a reset cuts (70_reset_and_hazards.md R230, R231). -/

namespace Sys2Proof.Machine

/-! ### Legal builds step, and only they -/

/-- The constraints on a build, written out (00_scope.md R10, R13). -/
theorem legal_iff (cfg : Config) :
    legal cfg = true ↔ 1 ≤ cfg.keyLength ∧ cfg.defaultKey.length = cfg.keyLength ∧
      (cfg.jitter = .off ∨
        (0 ≤ calLo cfg ∧ calLo cfg ≤ calHi cfg ∧ calHi cfg ≤ 2 ^ cfg.cal.calWidth - 1 ∧
          cfg.cal.nominalCal < 2 ^ cfg.cal.calWidth)) := by
  simp only [legal, windowLegal, Bool.and_eq_true, Bool.or_eq_true, decide_eq_true_eq, and_assoc]

theorem step_illegal {s : State} (h : ¬ legal s.cfg = true) : step s = .refused .illegalConfiguration :=
  if_neg h

/-- No turn changes the build, the characters still to come or the reset request. -/
theorem Turn.frame {s t : State} {c : Byte} (h : Turn s c t) : t.cfg = s.cfg ∧ t.rx = s.rx ∧ t.rst = s.rst := by
  obtain hquiet | ⟨-, r, hd, ⟨-, hp, rfl⟩ | ⟨-, hp, rfl⟩⟩ := h.quiet_or_completes
  · rw [hquiet.frame]; exact ⟨rfl, rfl, rfl⟩
  · rw [keyComplete_ok hp hd]; exact ⟨rfl, rfl, rfl⟩
  · obtain ⟨_, _, _, -, heq⟩ := plaintextComplete_answer hp hd
    rw [heq]; exact ⟨rfl, rfl, rfl⟩

theorem step_legal {s : State} (hl : legal s.cfg = true) : ∃ t, step s = .next t ∧ t.cfg = s.cfg := by
  cases hr : s.rst with
  | none =>
    cases hrx : s.rx with
    | nil => exact ⟨s, by rw [step_none hl hr, serve_nil hrx], rfl⟩
    | cons c rest =>
      obtain ⟨t, ht, hturn⟩ := step_turn hl hr hrx
      exact ⟨t, ht, hturn.frame.1⟩
  | some k =>
    obtain ⟨u, -, hs⟩ := step_some hl hr
    exact ⟨_, hs, by rw [resetNow_eq, State.cutAt, perform_cfg]⟩

/-- Decoding a payload of 32 characters is pairing its digits. -/
theorem hexDecode_block {s : State} (hp : s.ptr = blockDigits) :
    hexDecode s.buf 32 = packDigits (s.buf.map hexVal) := by
  rw [← hexDecode_payload, hp]
  rfl

/-! ### What a turn takes, sends and writes -/

/-- The characters a successful plaintext completion sends (30_encoding.md R76). -/
theorem plaintextComplete_sent {s : State} {r : List Byte} (hp : s.ptr = blockDigits)
    (hd : packDigits (s.buf.map hexVal) = some r) :
    s.plaintextComplete.sent = s.sent ++ responseFrame (Config.enc s.ek (blockOfBytes r)) := by
  rw [State.sent, plaintextComplete_events hp hd, calibrateActions_events, restoreActions_events]
  split <;> simp [State.sent, List.filterMap_cons, Event.sent?]

theorem keyComplete_sent {s : State} {r : List Byte} (hp : s.ptr = keyDigits s.cfg)
    (hd : packDigits (s.buf.map hexVal) = some r) : s.keyComplete.sent = s.sent := by
  rw [State.sent, keyComplete_events hp hd, List.filterMap_append]
  exact List.append_nil _

/-- A turn takes no further character. -/
theorem Turn.receives_nothing {s t : State} {c : Byte} (h : Turn s c t) :
    ∃ es, t.events = s.events ++ es ∧ es.filterMap Event.received? = [] := by
  obtain hquiet | ⟨-, r, hd, ⟨-, hp, rfl⟩ | ⟨-, hp, rfl⟩⟩ := h.quiet_or_completes
  · exact ⟨[], by rw [hquiet.events, List.append_nil], rfl⟩
  · exact ⟨_, keyComplete_events hp hd, rfl⟩
  · refine ⟨_, plaintextComplete_events hp hd, ?_⟩
    rw [calibrateActions_events, restoreActions_events]
    split <;> simp [List.filterMap_cons, Event.received?]

theorem QuietTurn.sent {s t : State} (h : QuietTurn s t) : t.sent = s.sent :=
  congrArg (List.filterMap Event.sent?) h.events

/-- A turn sends nothing, or the response for the block it leaves. -/
theorem Turn.sends {s t : State} {c : Byte} (h : Turn s c t) :
    t.sent = s.sent ∨ t.sent = s.sent ++ responseFrame t.block := by
  obtain hquiet | ⟨-, r, hd, ⟨-, hp, rfl⟩ | ⟨-, hp, rfl⟩⟩ := h.quiet_or_completes
  · exact .inl hquiet.sent
  · exact .inl (keyComplete_sent hp hd)
  · obtain ⟨_, _, _, -, heq⟩ := plaintextComplete_answer hp hd
    exact .inr (by rw [plaintextComplete_sent hp hd, heq])

theorem received_sent (s : State) (c : Byte) : (s.act (.rx c)).sent = s.sent := by
  rw [State.sent, received_events, List.filterMap_append]
  exact List.append_nil _

/-- Every turn keeps the canonical form of the stores (20_memory.md section 1). -/
theorem Turn.keeps_wf {s t : State} {c : Byte} (h : Turn s c t) (hw : Memory.wf s = true) : Memory.wf t = true := by
  obtain ⟨-, hkey⟩ := (wf_iff s).mp hw
  cases h with
  | command st _ ht => exact ht ▸ (wf_iff _).mpr ⟨Nat.zero_le _, hkey⟩
  | ignored _ _ ht => exact ht ▸ hw
  | append _ _ hroom ht => exact ht ▸ wf_append c hw hroom
  | overflow _ _ _ ht => exact ht ▸ wf_discard _ hw
  | badLength _ _ ht => exact ht ▸ wf_discard _ hw
  | invalid _ _ _ ht => rw [ht, discard_invalid_eq]; exact (wf_iff _).mpr ⟨Nat.zero_le _, hkey⟩
  | keyed _ _ _ _ _ ht => exact ht ▸ wf_keyComplete hw
  | answered _ _ _ _ _ ht => exact ht ▸ wf_plaintextComplete hw

/-! ### Resets inside a step -/

theorem bracketPhase_append (as bs : List Action) (p : BracketPhase) :
    bracketPhase (as ++ bs) p = (bracketPhase as p).bind (bracketPhase bs) := by
  induction as generalizing p with
  | nil => rfl
  | cons a as ih =>
    rw [List.cons_append, bracketPhase, bracketPhase]
    cases p.after a with
    | none => rfl
    | some q => exact ih q

/-- A bracketed record leaves the bracket closed. -/
theorem bracketPhase_of_bracketed {as : List Action} (h : Bracketed as = true) :
    bracketPhase as .outside = some .outside := by
  induction as using Bracketed.induct with
  | case1 => rfl
  | case2 _ _ rest ih => exact ih h
  | case3 => simp_all [Bracketed]
  | case4 => simp [Bracketed] at h
  | case5 a rest _ hdrive henc ih =>
    cases a with
    | drive high => exact absurd rfl (hdrive high)
    | encrypt b b' => exact absurd rfl (henc b b')
    | _ => exact ih h

/-- The reset sequence closes the bracket whatever its phase (70_reset_and_hazards.md R231). -/
theorem bracketPhase_resetActions (cfg : Config) (p : BracketPhase) :
    bracketPhase (resetActions cfg) p = some .outside := by
  cases p <;> rfl

/-- A bracketed record cut short and then reset leaves the bracket closed. -/
theorem bracketPhase_cut {as : List Action} (h : Bracketed as = true) (k : Nat) (cfg : Config) :
    bracketPhase (as.take k ++ resetActions cfg) .outside = some .outside := by
  have hall := bracketPhase_of_bracketed h
  rw [← List.take_append_drop k as, bracketPhase_append] at hall
  obtain ⟨p, hp, -⟩ := Option.bind_eq_some_iff.mp hall
  rw [bracketPhase_append, hp]
  exact bracketPhase_resetActions cfg p

/-- A turn of the loop, waiting included, adds a bracketed record. -/
theorem serve_adds_bracketed {s u : State} (h : serve s = .next u) :
    ∃ as, Bracketed as = true ∧ u.trace = s.trace ++ as := by
  cases hrx : s.rx with
  | nil =>
    rw [serve_nil hrx] at h
    cases h
    exact ⟨[], rfl, (List.append_nil _).symm⟩
  | cons c rest =>
    obtain ⟨t, ht, hturn⟩ := serve_turn hrx
    obtain rfl : t = u := by simpa [ht] using h
    obtain ⟨as, hb, htrace, -⟩ := hturn.adds_bracketed
    exact ⟨.rx c :: as, hb, by simp [htrace]⟩

/-- A step adds a record that leaves the bracket closed, resets inside it included. -/
theorem step_adds_closed_bracket {s t : State} (h : step s = .next t) :
    ∃ as, t.trace = s.trace ++ as ∧ bracketPhase as .outside = some .outside := by
  cases hr : s.rst with
  | none =>
    obtain ⟨as, hb, htrace⟩ := serve_adds_bracketed (step_next_none hr h).2
    exact ⟨as, htrace, bracketPhase_of_bracketed hb⟩
  | some k =>
    obtain ⟨u, hu, hs⟩ := step_some (step_cases h).1 hr
    obtain rfl : _ = t := by simpa [hs] using h
    obtain ⟨as, hb, htrace⟩ := serve_adds_bracketed hu
    refine ⟨as.take k ++ resetActions s.cfg, ?_, bracketPhase_cut hb k s.cfg⟩
    simp [resetNow_eq, State.cutAt, htrace]

end Sys2Proof.Machine

namespace Sys2Proof.Proofs
open Sys2Proof.Machine

/-- Settles O33: a reset has a next state as a turn has. -/
theorem legalBuildsAlwaysStep : Obligations.LegalBuildsAlwaysStep := fun _ hl => step_legal hl

/-- Settles O34: a legal build has a next state, so it is not refused. -/
theorem illegalBuildsAreRefused : Obligations.IllegalBuildsAreRefused := by
  intro s
  rw [← legal_iff]
  refine ⟨fun h hl => ?_, step_illegal⟩
  obtain ⟨t, ht, -⟩ := step_legal hl
  rw [ht] at h
  cases h

/-- Settles O35: `readChar` comes first, and no turn reads again. -/
theorem stepTakesExactlyOneCharacter : Obligations.StepTakesExactlyOneCharacter := by
  intro s t c rest hr hrx h
  obtain ⟨u, hu, hturn⟩ := step_turn (step_cases h).1 hr hrx
  obtain rfl : u = t := by simpa [hu] using h
  obtain ⟨-, hrx', -⟩ := hturn.frame
  obtain ⟨es, hes, hnone⟩ := hturn.receives_nothing
  refine ⟨by simp [hrx', hrx], es, ?_, hnone⟩
  rw [hes, received_events, List.append_assoc]
  rfl

/-- Settles O36: a turn that sends anything sends the frame of the block it leaves. -/
theorem stepSendsNothingOrOneWholeResponse : Obligations.StepSendsNothingOrOneWholeResponse := by
  intro s t hr h
  obtain ⟨-, ⟨-, -, rfl⟩ | ⟨-, c, -, -, hturn⟩ | ⟨k, u, hk, -, -⟩⟩ := step_cases h
  · exact .inl rfl
  · obtain hsent | hsent := hturn.sends <;> rw [received_sent] at hsent
    · exact .inl hsent
    · exact .inr ⟨_, hsent, rfl, hexEncode_length (by simp), hexEncode_upper _ _⟩
  · cases hr.symm.trans hk

/-- Settles O37: of all turns only a key completion that decodes writes a key. -/
theorem keysChangeOnlyByKeyCompletion : Obligations.KeysChangeOnlyByKeyCompletion := by
  intro s t hr h
  obtain ⟨-, ⟨-, -, rfl⟩ | ⟨-, c, rest, hrx, hturn⟩ | ⟨k, u, hk, -, -⟩⟩ := step_cases h
  · exact .inl ⟨rfl, rfl⟩
  · obtain hquiet | ⟨hc, r, hd, ⟨hst, hp, rfl⟩ | ⟨-, hp, rfl⟩⟩ := hturn.quiet_or_completes
    · exact .inl (by rw [hquiet.frame]; exact ⟨rfl, rfl⟩)
    · refine .inr ⟨c, rest, r, hrx, hc, hst, hp, (hexDecode_payload s).trans hd, ?_⟩
      rw [keyComplete_ok hp hd]
      exact ⟨rfl, rfl⟩
    · obtain ⟨_, _, _, -, heq⟩ := plaintextComplete_answer hp hd
      exact .inl (by rw [heq]; exact ⟨rfl, rfl⟩)
  · cases hr.symm.trans hk

/-- Settles O38: of all turns only a plaintext completion that decodes writes the Block. -/
theorem blockChangesOnlyByPlaintextCompletion : Obligations.BlockChangesOnlyByPlaintextCompletion := by
  intro s t hr h
  obtain ⟨-, ⟨-, -, rfl⟩ | ⟨-, c, rest, hrx, hturn⟩ | ⟨k, u, hk, -, -⟩⟩ := step_cases h
  · exact .inl rfl
  · obtain hquiet | ⟨hc, r, hd, ⟨-, hp, rfl⟩ | ⟨hst, hp, rfl⟩⟩ := hturn.quiet_or_completes
    · exact .inl (by rw [hquiet.frame]; rfl)
    · exact .inl (by rw [keyComplete_ok hp hd]; rfl)
    · obtain ⟨hlen, hblock⟩ := block_of_payload hp hd
      obtain ⟨_, _, _, -, heq⟩ := plaintextComplete_answer hp hd
      exact .inr ⟨c, rest, r, hrx, hc, hst, hp, (hexDecode_block hp).trans hd, hlen, hblock, by rw [heq]; rfl⟩
  · cases hr.symm.trans hk

/-- Settles O45: a turn keeps the canonical form, and a legal build's DEFAULT_KEY is a whole Key. -/
theorem stepKeepsTheStoresWellFormed : Obligations.StepKeepsTheStoresWellFormed := by
  intro s t hw h
  obtain ⟨hl, ⟨-, -, rfl⟩ | ⟨-, c, -, -, hturn⟩ | ⟨k, u, -, -, rfl⟩⟩ := step_cases h
  · exact hw
  · exact hturn.keeps_wf hw
  · exact wf_resetNow (by rwa [State.cutAt, perform_cfg])

/-- Settles O47: whatever phase a reset finds the bracket in, it closes it. -/
theorem everyStepEndsOutsideTheBracket : Obligations.EveryStepEndsOutsideTheBracket := by
  refine ⟨fun _ => rfl, fun s t hs h => ?_⟩
  obtain ⟨as, htrace, hclosed⟩ := step_adds_closed_bracket h
  rw [htrace, bracketPhase_append, hs]
  exact hclosed

/-- Settles O40: the reset table, field by field. -/
theorem resetEstablishesTheTable : Obligations.ResetEstablishesTheTable :=
  fun _ => ⟨rfl, rfl, rfl, rfl, rfl, rfl, rfl, rfl, rfl⟩

/-- Settles O41: the reset finds the state before the step. -/
theorem resetBetweenStepsRestoresTheResetValues : Obligations.ResetBetweenStepsRestoresTheResetValues := by
  intro s hl hr
  obtain ⟨u, -, hs⟩ := step_some hl hr
  rw [cutAt_zero] at hs
  exact ⟨_, hs, resetNow_eq s, resetNow_events s, sameStore_block (by rw [resetNow_eq]) (by rw [resetNow_eq])⟩

/-- Settles O42: the reset finds what the completed actions left. -/
theorem resetInsideAStepAbandonsIt : Obligations.ResetInsideAStepAbandonsIt := by
  intro s k hl hr
  obtain ⟨u, hu, hs⟩ := step_some hl hr
  refine ⟨_, u, _, hs, hu, rfl, ?_, ?_⟩
  · simp [resetNow_eq, State.cutAt]
  · have hevents : (s.cutAt u k).resetNow.events = _ := resetNow_events _
    rw [State.cutAt, perform_events, perform_cfg] at hevents
    refine ⟨?_, ?_, ?_, ?_, ?_, hevents⟩ <;> simp [resetNow_eq, State.cutAt]

/-- Settles O32: an empty Transport leaves `readChar` waiting. -/
theorem stepWaitsWhenNoCharacterCame : Obligations.StepWaitsWhenNoCharacterCame :=
  fun _ hl hr hrx => (step_none hl hr).trans (serve_nil hrx)

/-- Settles O31: the decoder reads the character in the context of the state before it is consumed. -/
theorem stepRunsTheDecodedInstruction : Obligations.StepRunsTheDecodedInstruction := by
  intro s c rest i hl hr hrx hi
  obtain ⟨hw, -, -⟩ := Laws.decode_isRow hi
  cases hi
  refine ⟨hw, ?_⟩
  rw [step_none hl hr, serve_cons hrx, rx_eq, hrx]
  rfl

end Sys2Proof.Proofs
end

section
/-! The Hex Codec's digits and case (30_encoding.md R73, 40_hex_codec.md R103, R109), the HexVal and transmit rows as
instructions, and what `decode` and `EmitResponse` are made of (41_protocol_fsm.md R132 to R134). -/

namespace Sys2Proof.Machine

/-- A successful pairing encodes back to the characters of the digits, in upper case (40_hex_codec.md R109). -/
theorem flatMap_encodeByte_decoded : ∀ {ascii bytes : List Byte},
    packDigits (ascii.map hexVal) = some bytes → bytes.flatMap encodeByte = ascii.map upperCase
  | [], _, h => by cases h; rfl
  | [_], _, h => by cases h
  | c :: d :: ascii, _, h => by
    obtain ⟨hn, ln, bs, hc, hd, hrest, rfl⟩ := packDigits_cons_some h
    rw [List.flatMap_cons, flatMap_encodeByte_decoded hrest, encodeByte, highNibble_join, lowNibble_join,
      hexChar_hexVal c hn hc, hexChar_hexVal d ln hd]
    rfl

/-- Upper-casing leaves exactly the texts without a lower-case hex letter. -/
theorem map_upperCase_eq_self (ascii : List Byte) :
    ascii.map upperCase = ascii ↔ ∀ c ∈ ascii, isLowerHex c = false := by
  simpa only [List.map_id, id, upperCase_eq_self] using List.map_inj_left (l := ascii) (f := upperCase) (g := id)

theorem hexVal_upperCase : ∀ c : Byte, hexVal (upperCase c) = hexVal c := by decide

/-- The HexVal row of a character delivers the character's HexVal (30_encoding.md R73). -/
theorem exec_decodeHex (c : Byte) (s : State) : exec (decodeHex c) s = .next (s.act (.digit (hexVal c))) := by
  unfold decodeHex
  split
  case h_23 =>
    simp only [imp_false] at *
    rw [Laws.hexVal_eq_none (by omega) (by omega) (by omega)]
    rfl
  all_goals
    simp only [hexVal, ‹c.toNat = _›]
    rfl

/-- The transmit row of a character hands it to the Transport (30_encoding.md R74, R76). -/
theorem exec_decodeTx {c : Byte} {i : Instr} (h : decodeTx c = .ok i) (s : State) :
    exec i s = .next (s.writeChar c) := by
  obtain ⟨-, -, hc⟩ := Laws.decodeTx_isRow h
  rw [← hc]
  unfold decodeTx at h
  split at h
  case h_19 => cases h
  all_goals
    cases h
    rfl

/-- Every digit of a response has a transmit row (30_encoding.md R74). -/
theorem decodeTx_hexChar : ∀ n : Nibble, (decodeTx (hexChar n)).isOk = true := by decide

/-- The characters of encoded bytes are digits of nibbles (40_hex_codec.md R106). -/
theorem mem_hexEncode {bytes : List Byte} {n : Nat} {c : Byte} (h : c ∈ hexEncode bytes n) : ∃ v, c = hexChar v := by
  obtain ⟨b, -, hb⟩ := List.mem_flatMap.mp h
  obtain rfl | rfl : c = _ ∨ c = _ := by simpa [encodeByte] using hb
  · exact ⟨_, rfl⟩
  · exact ⟨_, rfl⟩

/-- No character of a response is outside the transmit table (30_encoding.md R76). -/
theorem responseFrame_transmitted {b : Block} {c : Byte} (h : c ∈ responseFrame b) : ∃ i, decodeTx c = .ok i := by
  obtain rfl | hdigit | rfl : c = charR ∨ c ∈ hexEncode b.toList 16 ∨ c = charLf := by
    simpa [responseFrame] using h
  · exact ⟨_, rfl⟩
  · obtain ⟨v, rfl⟩ := mem_hexEncode hdigit
    have hok := decodeTx_hexChar v
    cases hrow : decodeTx (hexChar v) with
    | ok i => exact ⟨i, rfl⟩
    | error e => rw [hrow] at hok; cases hok
  · exact ⟨_, rfl⟩

/-- A discard touches the Capture Buffer, `st` and the record alone, and nothing is seen of it (60_exceptions.md
R204). -/
theorem discard_frame (s : State) (cond : Condition) :
    ∃ t, Host.Outcome.next (s.discard cond) = (.next t : Host.Outcome State Fault Refusal) ∧
      t = { s with st := .idle, buf := [], trace := s.trace ++ [.raise cond, .rewind, .goto .idle] } ∧
      t.ptr = 0 ∧ t.events = s.events ∧ SameStore .key s t ∧ SameStore .block s t := by
  refine ⟨_, rfl, discard_eq s cond, ?_, (quietTurn_discard s cond).events, ?_, ?_⟩ <;> rw [discard_eq]
  · rfl
  · exact sameStore_key rfl rfl
  · exact sameStore_block rfl rfl

theorem hasRoom_of_not_lt {s : State} (h : ¬ s.ptr < bufLen s.cfg) : s.hasRoom = false := decide_eq_false h

end Sys2Proof.Machine

namespace Sys2Proof.Proofs
open Sys2Proof.Machine Sys2Proof.Laws

/-- Settles O4, digit by digit. -/
theorem hexValHasTwentyTwoDigits : Obligations.HexValHasTwentyTwoDigits :=
  ⟨by decide, by decide, by decide, fun _ => hexVal_eq_none⟩

/-- Settles O7: a pairing encodes back to its digits' characters in upper case. -/
theorem encodeOfDecodedPayloadUpperCasesIt : Obligations.EncodeOfDecodedPayloadUpperCasesIt := by
  intro ascii bytes n hlen hd
  have hbytes : bytes.length = n := by have := hexDecode_length hlen.ge hd; omega
  have hencoded : hexEncode bytes n = ascii.map upperCase := by
    rw [hexDecode, List.take_of_length_le hlen.le] at hd
    rw [hexEncode, List.take_of_length_le hbytes.le, flatMap_encodeByte_decoded hd]
  exact ⟨hencoded, by rw [hencoded, map_upperCase_eq_self]⟩

/-- Settles O9, over all characters on input and over the digits on output. -/
theorem hexIsCaseInsensitiveInUpperCaseOut : Obligations.HexIsCaseInsensitiveInUpperCaseOut :=
  ⟨hexVal_upperCase, hexEncode_upper⟩

/-- Settles O10, row by row. -/
theorem hexRowsDeliverTheirValue : Obligations.HexRowsDeliverTheirValue := by
  refine ⟨fun p hp s => ?_, fun _ _ => rfl⟩
  fin_cases hp <;> rfl

/-- Settles O11: the HexVal row of each character, and the digits a payload's decode leaves. -/
theorem decodingAPayloadRunsItsHexRows : Obligations.DecodingAPayloadRunsItsHexRows := by
  refine ⟨fun c s => ⟨_, rfl, exec_decodeHex c s⟩, fun s => ?_⟩
  rw [hexDecode_payload, decodePayload_eq]
  exact ⟨rfl, rfl⟩

/-- Settles O12, row by row. -/
theorem responseRowsTransmitTheirCharacter : Obligations.ResponseRowsTransmitTheirCharacter := by
  intro p hp s
  fin_cases hp <;> rfl

/-- Settles O13: `EmitResponse` performs the frame's characters, and each of them is in the transmit table. -/
theorem emittingAResponseRunsItsTransmitRows : Obligations.EmittingAResponseRunsItsTransmitRows := by
  refine fun b => ⟨fun s => ?_, fun c hc => ?_⟩
  · rw [foldl_writeChar, perform_tx, emitResponse_eq]
    rfl
  · obtain ⟨i, hi⟩ := responseFrame_transmitted hc
    exact ⟨i, hi, exec_decodeTx hi⟩

/-- Settles O28: the record grows by 34 characters, and each of them is seen. -/
theorem emitResponseSendsThirtyFourCharacters : Obligations.EmitResponseSendsThirtyFourCharacters := by
  intro s out hout
  refine ⟨_, rfl, by simp [hout], ?_, emitResponse_eq s out⟩
  rw [emitResponse_eq, events_eq rfl, tx_events]
  rfl

/-- Settles O15: after `x` there is nothing left to rewind. -/
theorem abortIsIdempotent : Obligations.AbortIsIdempotent := by
  intro s t u ht hu
  cases ht
  cases hu
  rw [command_eq, command_eq]

/-- Settles O17, for both fit rows. -/
theorem appendWithoutRoomFaults : Obligations.AppendWithoutRoomFaults :=
  fun c _ h => ⟨appendChar_full .receivingKey c h, appendChar_full .receivingPlaintext c h⟩

/-- Settles O18: both full rows are the discard for Overflow, each in its own receiving state. -/
theorem dataWithoutRoomDiscardsTheCommand : Obligations.DataWithoutRoomDiscardsTheCommand := by
  refine List.forall_mem_cons.mpr ⟨fun c s => ⟨fun hst hfull hc => ?_, discard_frame s .overflow⟩,
    List.forall_mem_singleton.mpr fun c s => ⟨fun hst hfull hc => ?_, discard_frame s .overflow⟩⟩
  · exact RoundTrip.dataReceivingKeyFull c _ (decide_eq_true hc) (by rw [hst, hasRoom_of_not_lt hfull]; rfl)
  · exact RoundTrip.dataReceivingPlaintextFull c _ (decide_eq_true hc) (by rw [hst, hasRoom_of_not_lt hfull]; rfl)

end Sys2Proof.Proofs
end

section
/-! The completions (41_protocol_fsm.md section 6), the trigger sequence and the draw (42_trigger_controller.md), and
that what the random source answers reaches no register, no store and no response. -/

namespace Sys2Proof.Machine

/-- Either terminator completes a key command in ReceivingKey (41_protocol_fsm.md R124; 30_encoding.md R77). -/
theorem exec_keyTerminator {i : Instr} (hi : i ∈ [Instr.termLfReceivingKey, .termCrReceivingKey]) (s : State) :
    exec i s = .next s.keyComplete := by
  obtain rfl | rfl : i = .termLfReceivingKey ∨ i = .termCrReceivingKey := by simpa using hi
  · rfl
  · rfl

/-- Either terminator completes a plaintext command in ReceivingPlaintext (41_protocol_fsm.md R127; 30_encoding.md
R77). -/
theorem exec_plaintextTerminator {i : Instr} (hi : i ∈ [Instr.termLfReceivingPlaintext, .termCrReceivingPlaintext])
    (s : State) : exec i s = .next s.plaintextComplete := by
  obtain rfl | rfl : i = .termLfReceivingPlaintext ∨ i = .termCrReceivingPlaintext := by simpa using hi
  · rfl
  · rfl

/-- A discard after a payload's decode: nothing is seen of it, and Key and Block stay (60_exceptions.md R204). -/
theorem discard_invalid_frame (s : State) :
    ∃ t, Host.Outcome.next ((s.decodePayload.act .decodeReturn).discard .invalidHexDigit) =
        (.next t : Host.Outcome State Fault Refusal) ∧
      t = { s with
        st := .idle, buf := [], nibbles := []
        trace := s.trace ++ decodeActions s.buf ++ [.raise .invalidHexDigit, .rewind, .goto .idle] } ∧
      t.events = s.events ∧ SameStore .key s t ∧ SameStore .block s t := by
  refine ⟨_, rfl, discard_invalid_eq s, (quietTurn_invalid s).events, ?_, ?_⟩ <;> rw [discard_invalid_eq]
  · exact sameStore_key rfl rfl
  · exact sameStore_block rfl rfl

/-- A key completion is a discard or rekeys (41_protocol_fsm.md R132). -/
theorem keyComplete_cases (s : State) :
    (s.keyComplete = s.discard .badLength) ∨
    (s.keyComplete = (s.decodePayload.act .decodeReturn).discard .invalidHexDigit) ∨
    (s.ptr = keyDigits s.cfg ∧ ∃ r, packDigits (s.buf.map hexVal) = some r) := by
  by_cases hp : s.ptr = keyDigits s.cfg
  · cases hd : packDigits (s.buf.map hexVal) with
    | none => exact .inr (.inl (keyComplete_invalid hp hd))
    | some r => exact .inr (.inr ⟨hp, r, rfl⟩)
  · exact .inl (keyComplete_badLength hp)

/-- A plaintext completion is a discard or answers (41_protocol_fsm.md R133). -/
theorem plaintextComplete_cases (s : State) :
    (s.plaintextComplete = s.discard .badLength) ∨
    (s.plaintextComplete = (s.decodePayload.act .decodeReturn).discard .invalidHexDigit) ∨
    (s.ptr = blockDigits ∧ ∃ r, packDigits (s.buf.map hexVal) = some r) := by
  by_cases hp : s.ptr = blockDigits
  · cases hd : packDigits (s.buf.map hexVal) with
    | none => exact .inr (.inl (plaintextComplete_invalid hp hd))
    | some r => exact .inr (.inr ⟨hp, r, rfl⟩)
  · exact .inl (plaintextComplete_badLength hp)

/-! ### The draw -/

/-- A legal build with jitter has a window that is not empty and not negative (00_scope.md R13 (d)). -/
theorem window_of_legal {cfg : Config} (hl : legal cfg = true) (hj : cfg.jitter ≠ .off) :
    0 ≤ calLo cfg ∧ calLo cfg ≤ calHi cfg := by
  obtain ⟨-, -, hoff | ⟨hlo, hle, -⟩⟩ := (legal_iff cfg).mp hl
  · exact absurd hoff hj
  · exact ⟨hlo, hle⟩

/-- A value of the window is drawn as it is (42_trigger_controller.md R165). -/
theorem drawFrom_inside {cfg : Config} {raw : Nat} (hlo : calLo cfg ≤ raw) (hhi : (raw : Int) ≤ calHi cfg) :
    drawFrom cfg raw = raw := if_pos ⟨hlo, hhi⟩

/-- Whatever the random source answers, the draw lies in a window that is not empty (42_trigger_controller.md R165). -/
theorem drawFrom_mem_window {cfg : Config} (hlo : 0 ≤ calLo cfg) (hle : calLo cfg ≤ calHi cfg) (raw : Nat) :
    calLo cfg ≤ drawFrom cfg raw ∧ (drawFrom cfg raw : Int) ≤ calHi cfg := by
  by_cases hin : calLo cfg ≤ raw ∧ (raw : Int) ≤ calHi cfg
  · rwa [drawFrom_inside hin.1 hin.2]
  · have hnonneg := Int.emod_nonneg (raw : Int) (show calHi cfg - calLo cfg + 1 ≠ 0 by omega)
    have hlt := Int.emod_lt_of_pos (raw : Int) (show 0 < calHi cfg - calLo cfg + 1 by omega)
    rw [drawFrom, if_neg hin]
    omega

theorem nextDraw_mem_window {s : State} (hl : legal s.cfg = true) (hj : s.cfg.jitter ≠ .off) :
    calLo s.cfg ≤ s.nextDraw ∧ (s.nextDraw : Int) ≤ calHi s.cfg := by
  obtain ⟨hlo, hle⟩ := window_of_legal hl hj
  exact drawFrom_mem_window hlo hle _

/-! ### What the random source answers -/

/-- Two states agree on every register, store and input but the random source's, and have sent the same characters. -/
structure SameButDraws (s s' : State) : Prop where
  cfg : s'.cfg = s.cfg
  st : s'.st = s.st
  buf : s'.buf = s.buf
  key : s'.key = s.key
  block : s'.block = s.block
  trig : s'.trig = s.trig
  ek : s'.ek = s.ek
  cal : s'.cal = s.cal
  rx : s'.rx = s.rx
  nibbles : s'.nibbles = s.nibbles
  sent : s'.sent = s.sent

theorem act_sent (s : State) (a : Action) : (s.act a).sent = s.sent ++ ([a].filterMap eventOf).filterMap Event.sent? :=
  sent_eq rfl

/-- The same action keeps two states alike. -/
theorem SameButDraws.act {s s' : State} (h : SameButDraws s s') (a : Action) : SameButDraws (s.act a) (s'.act a) := by
  constructor <;> simp only [act_cfg, act_st, act_buf, act_key, act_block, act_trig, act_ek, act_cal, act_rx,
    act_nibbles, act_sent, h.cfg, h.st, h.buf, h.key, h.block, h.trig, h.ek, h.cal, h.rx, h.nibbles, h.sent]

/-- The same actions keep two states alike. -/
theorem SameButDraws.perform {s s' : State} (h : SameButDraws s s') (as : List Action) :
    SameButDraws (s.perform as) (s'.perform as) := by
  induction as generalizing s s' with
  | nil => exact h
  | cons a as ih => exact ih (h.act a)

theorem SameButDraws.discard {s s' : State} (h : SameButDraws s s') (cond : Condition) :
    SameButDraws (s.discard cond) (s'.discard cond) := h.perform _

theorem SameButDraws.decodePayload {s s' : State} (h : SameButDraws s s') :
    SameButDraws s.decodePayload s'.decodePayload := by
  rw [State.decodePayload, State.decodePayload, h.buf]
  exact h.perform _

theorem SameButDraws.keyComplete {s s' : State} (h : SameButDraws s s') :
    SameButDraws s.keyComplete s'.keyComplete := by
  have hd := h.decodePayload
  unfold State.keyComplete State.keyLengthOk State.ptr
  rw [h.buf, h.cfg, hd.nibbles]
  split
  · split
    · exact hd.perform _
    · exact (hd.act _).discard _
  · exact h.discard _

/-- The trigger sequence is where the draw happens, and it leaves the calibration nominal again
(42_trigger_controller.md R166). -/
theorem SameButDraws.plaintextComplete {s s' : State} (h : SameButDraws s s') :
    SameButDraws s.plaintextComplete s'.plaintextComplete := by
  have hptr : s'.ptr = s.ptr := congrArg List.length h.buf
  by_cases hp : s.ptr = blockDigits
  case neg =>
    rw [plaintextComplete_badLength hp, plaintextComplete_badLength (hptr ▸ hp)]
    exact h.discard _
  cases hd : packDigits (s.buf.map hexVal) with
  | none =>
    rw [plaintextComplete_invalid hp hd, plaintextComplete_invalid (hptr.trans hp) (h.buf ▸ hd)]
    exact (h.decodePayload.act _).discard _
  | some r =>
    have hp' := hptr.trans hp
    have hd' : packDigits (s'.buf.map hexVal) = some r := h.buf ▸ hd
    have hsent : s'.plaintextComplete.sent = s.plaintextComplete.sent := by
      rw [plaintextComplete_sent hp' hd', plaintextComplete_sent hp hd, h.ek, h.sent]
    obtain ⟨cal, _, _, hcal, heq⟩ := plaintextComplete_answer hp hd
    obtain ⟨cal', _, _, hcal', heq'⟩ := plaintextComplete_answer hp' hd'
    have hcaleq : cal' = cal := by
      rw [hcal', hcal, h.cfg, h.cal]
    constructor
    case sent => exact hsent
    all_goals simp [heq, heq', h.cfg, h.key, h.ek, h.rx, hcaleq]

theorem SameButDraws.appendChar {s s' t t' : State} (h : SameButDraws s s') {st : Protocol} {c : Byte}
    (ht : s.appendChar st c = .next t) (ht' : s'.appendChar st c = .next t') : SameButDraws t t' := by
  unfold State.appendChar at ht ht'
  split at ht <;> cases ht
  split at ht' <;> cases ht'
  exact h.perform _

/-- The row of a character runs alike in two states that are alike. -/
theorem SameButDraws.exec_decodeStep {s s' t t' : State} (h : SameButDraws s s') {st : Protocol} {room : Bool}
    {c : Byte} (ht : exec (decodeStep st room c) s = .next t)
    (ht' : exec (decodeStep st room c) s' = .next t') :
    SameButDraws t t' := by
  rcases Laws.char_cases c with rfl | rfl | rfl | rfl | rfl | hdata
  case inr.inr.inr.inr.inr =>
    simp only [decodeStep, hdata] at ht ht'
    cases st <;> cases room
    case receivingKey.true => exact h.appendChar ht ht'
    case receivingPlaintext.true => exact h.appendChar ht ht'
    all_goals cases ht; cases ht'; exact h.perform _
  case inl => cases ht; cases ht'; exact h.perform _
  case inr.inl => cases ht; cases ht'; exact h.perform _
  case inr.inr.inl => cases ht; cases ht'; exact h.perform _
  all_goals
    cases st
    case idle => cases ht; cases ht'; exact h.perform _
    case receivingKey => cases ht; cases ht'; exact h.keyComplete
    case receivingPlaintext => cases ht; cases ht'; exact h.plaintextComplete

/-- A turn of the loop runs alike, waiting included. -/
theorem SameButDraws.serve {s s' t t' : State} (h : SameButDraws s s') (ht : serve s = .next t)
    (ht' : Machine.serve s' = .next t') : SameButDraws t t' := by
  cases hrx : s.rx with
  | nil =>
    rw [serve_nil hrx] at ht
    rw [serve_nil (h.rx.trans hrx)] at ht'
    cases ht
    cases ht'
    exact h
  | cons c rest =>
    have hroom : s'.hasRoom = s.hasRoom := by rw [State.hasRoom, State.ptr, h.buf, h.cfg, State.hasRoom]
    rw [serve_cons hrx] at ht
    rw [serve_cons (h.rx.trans hrx), h.st, hroom] at ht'
    exact (h.act (.rx c)).exec_decodeStep ht ht'

/-! ### Discards against the abort -/

/-- `t` is what `'x'` leaves in `s`, but for the record, and shows nothing (60_exceptions.md R204, R205). -/
def LeavesWhatAbortLeaves (s t : State) : Prop :=
  { t with trace := [] } = { s with st := .idle, buf := [], trace := [] } ∧ t.events = s.events

theorem discard_leavesWhatAbortLeaves (s : State) (cond : Condition) : LeavesWhatAbortLeaves s (s.discard cond) :=
  ⟨by rw [discard_eq], (quietTurn_discard s cond).events⟩

theorem discard_invalid_leavesWhatAbortLeaves {s : State} (hnib : s.nibbles = []) :
    LeavesWhatAbortLeaves s ((s.decodePayload.act .decodeReturn).discard .invalidHexDigit) :=
  ⟨by rw [discard_invalid_eq, ← hnib], (quietTurn_invalid s).events⟩

theorem keyComplete_leavesWhatAbortLeaves {s : State} (hnib : s.nibbles = [])
    (hbad : s.ptr ≠ keyDigits s.cfg ∨ packDigits (s.buf.map hexVal) = none) :
    LeavesWhatAbortLeaves s s.keyComplete := by
  obtain heq | heq | ⟨hp, r, hd⟩ := keyComplete_cases s
  · exact heq ▸ discard_leavesWhatAbortLeaves s _
  · exact heq ▸ discard_invalid_leavesWhatAbortLeaves hnib
  · simp [hp, hd] at hbad

theorem plaintextComplete_leavesWhatAbortLeaves {s : State} (hnib : s.nibbles = [])
    (hbad : s.ptr ≠ blockDigits ∨ packDigits (s.buf.map hexVal) = none) :
    LeavesWhatAbortLeaves s s.plaintextComplete := by
  obtain heq | heq | ⟨hp, r, hd⟩ := plaintextComplete_cases s
  · exact heq ▸ discard_leavesWhatAbortLeaves s _
  · exact heq ▸ discard_invalid_leavesWhatAbortLeaves hnib
  · simp [hp, hd] at hbad

end Sys2Proof.Machine

namespace Sys2Proof.Proofs
open Sys2Proof.Machine

/-- Settles O20: the payload decodes, so the completion rekeys. -/
theorem keyCompletionRekeysTheEngine : Obligations.KeyCompletionRekeysTheEngine := by
  intro i hi s r hp hd
  rw [hexDecode_payload] at hd
  refine ⟨_, exec_keyTerminator hi s, ?_, keyComplete_events hp hd, keyBytes_length hp hd, keyComplete_sent hp hd, ?_⟩
  · rw [keyComplete_ok hp hd]
    simp [decodeActions]
  · exact sameStore_block (by rw [keyComplete_ok hp hd]) (by rw [keyComplete_ok hp hd])

/-- Settles O21: the length is checked first, then the digits. -/
theorem keyCompletionDiscardsBadPayloads : Obligations.KeyCompletionDiscardsBadPayloads := by
  intro i hi s
  rw [exec_keyTerminator hi]
  refine ⟨fun hp => ?_, fun hp hd => ?_⟩
  · rw [keyComplete_badLength hp, discard_eq]
  · rw [keyComplete_invalid hp (hexDecode_payload s ▸ hd)]
    exact discard_invalid_frame s

/-- Settles O22: without jitter the trigger sequence is the bracket alone. -/
theorem plaintextCompletionEncryptsAndAnswers : Obligations.PlaintextCompletionEncryptsAndAnswers := by
  intro i hi s r hj hp hd
  rw [hexDecode_block hp] at hd
  obtain ⟨hlen, hblock⟩ := block_of_payload hp hd
  refine ⟨hlen, hblock, _, exec_plaintextTerminator hi s, ?_, ?_, ?_, ?_⟩
  · rw [plaintextComplete_off hp hd hj]
  · rw [plaintextComplete_events hp hd, calibrateActions_events, restoreActions_events, if_pos hj, if_pos hj,
      plaintextComplete_off hp hd hj]
    simp
  · rw [plaintextComplete_sent hp hd, plaintextComplete_off hp hd hj]
  · exact sameStore_key (by rw [plaintextComplete_off hp hd hj]) (by rw [plaintextComplete_off hp hd hj])

/-- Settles O23: with jitter the calibration is written before the bracket, with a value of the window, and after it. -/
theorem plaintextCompletionWithJitterCalibratesOutsideTheBracket :
    Obligations.PlaintextCompletionWithJitterCalibratesOutsideTheBracket := by
  intro i hi s r hj hl hp hd
  rw [hexDecode_block hp] at hd
  obtain ⟨hlen, hblock⟩ := block_of_payload hp hd
  obtain ⟨hlo, hhi⟩ := nextDraw_mem_window hl hj
  refine ⟨hlen, hblock, _, s.nextDraw, exec_plaintextTerminator hi s, hlo, hhi, ?_, ?_, ?_⟩
  · rw [plaintextComplete_on hp hd hj]
  · rw [plaintextComplete_events hp hd, calibrateActions_events, restoreActions_events, if_neg hj, if_neg hj,
      plaintextComplete_on hp hd hj]
    simp
  · exact sameStore_key (by rw [plaintextComplete_on hp hd hj]) (by rw [plaintextComplete_on hp hd hj])

/-- Settles O24: the length is checked first, then the digits. -/
theorem plaintextCompletionDiscardsBadPayloads : Obligations.PlaintextCompletionDiscardsBadPayloads := by
  intro i hi s
  rw [exec_plaintextTerminator hi]
  refine ⟨fun hp => ?_, fun hp hd => ?_⟩
  · rw [plaintextComplete_badLength hp, discard_eq]
  · rw [plaintextComplete_invalid hp (hexDecode_block hp ▸ hd)]
    exact discard_invalid_frame s

/-- Settles O25: each of the three outcomes of a completion ends in Idle with an empty buffer. -/
theorem terminatorsAlwaysReturnToIdle : Obligations.TerminatorsAlwaysReturnToIdle := by
  refine ⟨fun i hi s => ⟨_, exec_keyTerminator hi s, ?_⟩, fun i hi s => ⟨_, exec_plaintextTerminator hi s, ?_⟩⟩
  · obtain heq | heq | ⟨hp, r, hd⟩ := keyComplete_cases s
    · have hsent := (quietTurn_discard s .badLength).sent
      rw [heq]
      rw [discard_eq] at hsent ⊢
      exact ⟨rfl, rfl, rfl, rfl, rfl, rfl, rfl, rfl, hsent⟩
    · have hsent := (quietTurn_invalid s).sent
      rw [heq]
      rw [discard_invalid_eq] at hsent ⊢
      exact ⟨rfl, rfl, rfl, rfl, rfl, rfl, rfl, rfl, hsent⟩
    · have hsent := keyComplete_sent hp hd
      rw [keyComplete_ok hp hd] at hsent ⊢
      exact ⟨rfl, rfl, rfl, rfl, rfl, rfl, rfl, rfl, hsent⟩
  · obtain heq | heq | ⟨hp, r, hd⟩ := plaintextComplete_cases s
    · rw [heq, discard_eq]
      exact ⟨rfl, rfl, rfl, rfl, id, rfl, rfl, rfl⟩
    · rw [heq, discard_invalid_eq]
      exact ⟨rfl, rfl, rfl, rfl, id, rfl, rfl, rfl⟩
    · obtain ⟨_, _, _, -, heq⟩ := plaintextComplete_answer hp hd
      rw [heq]
      exact ⟨rfl, rfl, rfl, rfl, fun _ => rfl, rfl, rfl, rfl⟩

/-- Settles O26: a buffer of 4 × KEY_LENGTH characters, with KEY_LENGTH below 8, never holds 32. -/
theorem shortKeyBuildsNeverEncrypt : Obligations.ShortKeyBuildsNeverEncrypt := by
  intro i hi s hshort hptr
  have hp : s.ptr ≠ blockDigits := by unfold bufLen at hptr; unfold blockDigits; omega
  rw [exec_plaintextTerminator hi, plaintextComplete_badLength hp, discard_eq]

/-- Settles O27: the bracket alone, or the bracket between calibration and restore. -/
theorem triggerSequenceHasItsEvents : Obligations.TriggerSequenceHasItsEvents := by
  refine fun s => ⟨fun hj => ?_, fun hj => ?_⟩
  · rw [triggerSequence_off hj, bracket_eq]
    exact ⟨rfl, by rw [events_eq (s := s) rfl]; rfl⟩
  · rw [triggerSequence_on hj]
    exact ⟨rfl, by rw [events_eq (s := s) rfl]; rfl⟩

/-- Settles O30: both states wait, or run the same row after the same character. -/
theorem drawsReachNoDataAndNoResponse : Obligations.DrawsReachNoDataAndNoResponse := by
  intro s t t' rnd draws hr h h'
  have hsame : SameButDraws s { s with rnd := rnd, draws := draws } :=
    ⟨rfl, rfl, rfl, rfl, rfl, rfl, rfl, rfl, rfl, rfl, rfl⟩
  have hend := hsame.serve (step_next_none hr h).2 (step_next_none (by exact hr) h').2
  exact ⟨hend.st, hend.buf, hend.key, hend.block, hend.trig, hend.ek, hend.cal, hend.rx, hend.sent⟩

/-- Settles O39: every discard is the abort and the label of its condition, which no one sees. -/
theorem discardLeavesWhatAbortLeaves : Obligations.DiscardLeavesWhatAbortLeaves := by
  intro s t x i hnib hcond ht hx
  have hdiscard : LeavesWhatAbortLeaves s t := by
    obtain ⟨c, rfl | rfl⟩ | ⟨hi, hbad⟩ | ⟨hi, hbad⟩ := hcond
    · cases ht; exact discard_leavesWhatAbortLeaves s _
    · cases ht; exact discard_leavesWhatAbortLeaves s _
    · cases (exec_keyTerminator (by simpa using hi) s).symm.trans ht
      exact keyComplete_leavesWhatAbortLeaves hnib (hexDecode_payload s ▸ hbad)
    · cases (exec_plaintextTerminator (by simpa using hi) s).symm.trans ht
      refine plaintextComplete_leavesWhatAbortLeaves hnib (or_iff_not_imp_left.mpr fun hp => ?_)
      rw [← hexDecode_block (not_not.mp hp)]
      exact hbad.resolve_left hp
  obtain ⟨u, hu, heq, -, hevents, -⟩ := rewind_goto_frame s .idle
  obtain rfl : u = x := by cases hu.symm.trans hx; rfl
  exact ⟨hdiscard.1.trans (by rw [heq]), hdiscard.2.trans hevents.symm, hdiscard.2⟩

/-- Settles O29: the fold brings every answer into the window, and leaves the window's own values. -/
theorem drawsFillExactlyTheWindow : Obligations.DrawsFillExactlyTheWindow :=
  fun _ hl hj => ⟨nextDraw_mem_window hl hj, fun _ hlo hhi => drawFrom_inside hlo hhi⟩

end Sys2Proof.Proofs
end

section
/-! Whole commands (30_encoding.md R75, R76; 41_protocol_fsm.md sections 2 to 4): a command character, a payload that
fits, and what comes after it. -/

namespace Sys2Proof.Machine

/-- What the turns over a payload that fits do (41_protocol_fsm.md R125, R128). -/
def appendTurns (st : Protocol) (payload : List Byte) : List Action :=
  payload.flatMap fun c => [.rx c, .append c, .goto st]

theorem appendTurns_events (st : Protocol) (payload : List Byte) :
    (appendTurns st payload).filterMap eventOf = payload.map .rx := by
  induction payload with
  | nil => rfl
  | cons c payload ih => exact congrArg (Event.rx c :: ·) ih

/-- The state after a payload that fits has come, with the command still pending. -/
def State.accumulated (s : State) (payload rest : List Byte) : State :=
  { s with rx := rest, buf := s.buf ++ payload, trace := s.trace ++ appendTurns s.st payload }

theorem accumulated_events (s : State) (payload rest : List Byte) :
    (s.accumulated payload rest).events = s.events ++ payload.map .rx := by
  rw [events_eq (s := s) rfl, appendTurns_events]

/-- A payload that fits accumulates, one character a step (41_protocol_fsm.md R139). -/
theorem run_accumulates {payload : List Byte} : ∀ {s : State} {rest : List Byte}, legal s.cfg = true → s.rst = none →
    s.st ≠ .idle → (∀ c ∈ payload, classify c = .data) → s.ptr + payload.length ≤ bufLen s.cfg →
    s.rx = payload ++ rest → Sys2Proof.core.run payload.length s = .next (s.accumulated payload rest) := by
  induction payload with
  | nil =>
    intro s rest _ _ _ _ _ hrx
    rw [List.nil_append] at hrx
    simp [State.accumulated, appendTurns, ← hrx, core_run_zero]
  | cons c payload ih =>
    intro s rest hl hr hst hdata hfit hrx
    rw [List.length_cons] at hfit ⊢
    rw [core_run_step (step_append hl hr hrx hst (hdata c List.mem_cons_self) (by omega))]
    have hfit' : (s.buf ++ [c]).length + payload.length ≤ bufLen s.cfg := by
      simp only [List.length_append, List.length_singleton, ptr_eq] at hfit ⊢
      omega
    rw [ih (by exact hl) (by exact hr) (by exact hst) (fun d hd => hdata d (List.mem_cons_of_mem c hd)) hfit' rfl]
    simp [State.accumulated, appendTurns]

/-- The state in which the command that `k` started waits for what follows its payload. -/
def State.pending (s : State) (k : Byte) (st : Protocol) (payload rest : List Byte) : State :=
  { s with
    st := st, buf := payload, rx := rest
    trace := s.trace ++ .rx k :: .rewind :: .goto st :: appendTurns st payload }

theorem pending_events (s : State) (k : Byte) (st : Protocol) (payload rest : List Byte) :
    (s.pending k st payload rest).events = s.events ++ .rx k :: payload.map .rx := by
  rw [events_eq (s := s) rfl, ← appendTurns_events st]
  rfl

theorem pending_sent (s : State) (k : Byte) (st : Protocol) (payload rest : List Byte) :
    (s.pending k st payload rest).sent = s.sent := by
  simp [State.sent, pending_events, List.filterMap_cons, Event.sent?, Function.comp_def]

/-- The two characters that start a command, with the receiving state each enters (41_protocol_fsm.md R122, R123). -/
def commands : List (Byte × Protocol) := [(charK, .receivingKey), (charP, .receivingPlaintext)]

/-- From any state, a command character and a payload that fits leave the command pending. -/
theorem run_pending {s : State} {k : Byte} {st : Protocol} {payload rest : List Byte} (hl : legal s.cfg = true)
    (hr : s.rst = none) (hk : (k, st) ∈ commands) (hdata : ∀ c ∈ payload, classify c = .data)
    (hfit : payload.length ≤ bufLen s.cfg) (hrx : s.rx = k :: payload ++ rest) :
    Sys2Proof.core.run (payload.length + 1) s = .next (s.pending k st payload rest) := by
  have hst : st ≠ .idle := by
    simp only [commands, List.mem_cons, Prod.mk.injEq, List.not_mem_nil, or_false] at hk
    obtain ⟨-, rfl⟩ | ⟨-, rfl⟩ := hk <;> simp
  rw [core_run_step (step_command hl hr hrx (List.mem_cons_of_mem _ hk)),
    run_accumulates (by exact hl) (by exact hr) (by exact hst) hdata (by simpa using hfit) rfl]
  simp [State.accumulated, State.pending]

/-- One more step after the payload. -/
theorem run_pending_step {s t : State} {k : Byte} {st : Protocol} {payload rest : List Byte} (hl : legal s.cfg = true)
    (hr : s.rst = none) (hk : (k, st) ∈ commands) (hdata : ∀ c ∈ payload, classify c = .data)
    (hfit : payload.length ≤ bufLen s.cfg) (hrx : s.rx = k :: payload ++ rest)
    (h : step (s.pending k st payload rest) = .next t) : Sys2Proof.core.run (payload.length + 2) s = .next t := by
  rw [core_run_add 1 (run_pending hl hr hk hdata hfit hrx), core_run_step h, core_run_zero]

theorem data_of_isHexDigit {c : Byte} (h : isHexDigit c = true) : classify c = .data :=
  hexVal_data c (Option.isSome_iff_ne_none.mp h)

/-- An even number of hex digits decodes (40_hex_codec.md R102). -/
theorem packDigits_of_hexDigits {payload : List Byte} (heven : payload.length % 2 = 0)
    (hhex : ∀ c ∈ payload, isHexDigit c = true) : ∃ r, packDigits (payload.map hexVal) = some r := by
  refine Option.ne_none_iff_exists'.mp fun hnone => ?_
  rw [packDigits_eq_none_iff (by rwa [List.length_map]), List.mem_map] at hnone
  obtain ⟨c, hc, hinvalid⟩ := hnone
  have hdigit := hhex c hc
  rw [isHexDigit, hinvalid] at hdigit
  cases hdigit

end Sys2Proof.Machine

namespace Sys2Proof.Proofs
open Sys2Proof.Machine

/-- Settles O49: the whole state after the payload, read field by field. -/
theorem fittingPayloadAccumulates : Obligations.FittingPayloadAccumulates := by
  intro s payload rest hl hr hst hdata hfit hrx
  exact ⟨_, run_accumulates hl hr hst hdata hfit hrx, rfl, rfl, rfl, rfl, rfl, rfl, rfl, rfl, hr, rfl,
    accumulated_events s payload rest⟩

/-- Settles O50: the terminator finds the whole payload pending, which decodes. -/
theorem keyCommandRekeysFromAnyState : Obligations.KeyCommandRekeysFromAnyState := by
  intro s payload rest e hl hr hlen hhex he hrx
  obtain ⟨r, hd⟩ := packDigits_of_hexDigits (by omega) hhex
  have hfit : payload.length ≤ bufLen s.cfg := by unfold bufLen; omega
  have hp : ((s.pending charK .receivingKey payload (e :: rest)).act (.rx e)).ptr = keyDigits s.cfg := hlen
  have hstep := (step_terminator (s := s.pending charK .receivingKey payload (e :: rest)) hl hr rfl he).1 rfl
  have hrun := run_pending_step hl hr (by simp [commands]) (fun c hc => data_of_isHexDigit (hhex c hc)) hfit hrx hstep
  have hevents := keyComplete_events hp hd
  rw [received_events, pending_events] at hevents
  rw [keyComplete_ok hp hd] at hrun hevents
  refine ⟨_, r, ?_, hrun, rfl, rfl, rfl, rfl, rfl, rfl, by simpa using hevents⟩
  rwa [hexDecode, List.take_length]

/-- Settles O51: the terminator finds the whole payload pending, which decodes to a Block. -/
theorem plaintextCommandAnswersFromAnyState : Obligations.PlaintextCommandAnswersFromAnyState := by
  intro s payload rest e hl hr hkey hlen hhex he hrx
  obtain ⟨r, hd⟩ := packDigits_of_hexDigits (by omega) hhex
  obtain ⟨hrlen, hblock⟩ := block_of_payload hlen hd
  have hfit : payload.length ≤ bufLen s.cfg := by unfold bufLen; omega
  have hp : ((s.pending charP .receivingPlaintext payload (e :: rest)).act (.rx e)).ptr = blockDigits := hlen
  have hstep := (step_terminator (s := s.pending charP .receivingPlaintext payload (e :: rest)) hl hr rfl he).2 rfl
  have hrun := run_pending_step hl hr (by simp [commands]) (fun c hc => data_of_isHexDigit (hhex c hc)) hfit hrx hstep
  have hsent := plaintextComplete_sent hp hd
  rw [received_sent, pending_sent] at hsent
  obtain ⟨_, _, _, -, heq⟩ := plaintextComplete_answer hp hd
  rw [hlen] at hrun
  rw [heq] at hrun hsent
  refine ⟨_, r, ?_, hrlen, hblock, hrun, rfl, hsent, rfl, rfl, rfl, rfl, rfl, rfl⟩
  rwa [hexDecode, List.take_of_length_le hlen.le]

/-- Settles O52: the buffer is full before the last character, which discards the command. -/
theorem overlongPayloadAbortsTheCommand : Obligations.OverlongPayloadAbortsTheCommand := by
  intro s payload rest k hl hr hk hlen hdata hrx
  obtain ⟨fitting, c, rfl⟩ : ∃ fitting c, payload = fitting ++ [c] :=
    (List.eq_nil_or_concat' payload).resolve_left (by rintro rfl; simp at hlen)
  obtain ⟨st, hst, hmem⟩ : ∃ st, st ≠ Protocol.idle ∧ (k, st) ∈ commands := by
    obtain rfl | rfl := hk
    · exact ⟨.receivingKey, by simp [commands]⟩
    · exact ⟨.receivingPlaintext, by simp [commands]⟩
  have hfull : fitting.length = bufLen s.cfg := by simpa using hlen
  have hstep := step_overflow (s := s.pending k st fitting (c :: rest)) hl hr rfl hst (hdata c (by simp))
    (by simp [State.pending, hfull])
  have hrun := run_pending_step hl hr hmem (fun d hd => hdata d (by simp [hd])) hfull.le (by simpa using hrx) hstep
  rw [List.length_append, List.length_singleton]
  refine ⟨_, hrun, rfl, rfl, rfl, rfl, rfl, rfl, ?_⟩
  rw [events_eq (s := s.pending k st fitting (c :: rest)) rfl, pending_events]
  simp [List.filterMap_cons, eventOf]

end Sys2Proof.Proofs
end

section
/-! The byte stores (20_memory.md section 1): what `MemRead` gives, what `MemWrite` writes, and that the machine's own
accesses are of these two kinds. -/

namespace Sys2Proof.Machine

/-- In canonical form every element of KEY and BLOCK has a value, and of BUF those below the cursor
(10_state.md R23, R27, R28). -/
theorem length_bytes_of_wf {s : State} (hw : Memory.wf s = true) (sp : Space) :
    (s.bytes sp).length = if sp = .buf then s.ptr else s.size sp := by
  cases sp with
  | buf => rfl
  | key => exact ((wf_iff s).mp hw).2
  | block => simp

/-- An access inside a store, and below the cursor in BUF, finds only elements that have a value. -/
theorem access_le_length {s : State} (hw : Memory.wf s = true) {sp : Space} {k : Nat} (hsize : k ≤ s.size sp)
    (hbuf : sp = .buf → k ≤ s.ptr) : k ≤ (s.bytes sp).length := by
  rw [length_bytes_of_wf hw]
  split
  · exact hbuf ‹_›
  · exact hsize

theorem memRead_outside {s : State} {sp : Space} {addr n : Nat} (h : ¬ addr + n ≤ s.size sp) :
    s.memRead sp addr n = .error (.outOfStore sp (max addr (s.size sp))) := if_neg h

theorem memWrite_outside {s : State} {sp : Space} {addr n : Nat} (v : Vector Byte n) (h : ¬ addr + n ≤ s.size sp) :
    s.memWrite sp addr n v = .error (.outOfStore sp (max addr (s.size sp))) := if_neg h

/-- A read of elements that all have a value gives that part of the store. -/
theorem memRead_ok {s : State} {sp : Space} {addr n : Nat} (hsize : addr + n ≤ s.size sp)
    (hlen : addr + n ≤ (s.bytes sp).length) : s.memRead sp addr n = .ok (((s.bytes sp).drop addr).take n) := by
  rw [memRead_inside hsize, readRun_ok s sp n addr hlen]

/-- A read of a whole store whose elements all have a value gives them. -/
theorem memRead_whole {s : State} {sp : Space} {n : Nat} (hn : (s.bytes sp).length = n) (hsize : n ≤ s.size sp) :
    s.memRead sp 0 n = .ok (s.bytes sp) := by
  subst hn
  rw [memRead_ok (by simpa using hsize) (by simp), List.drop_zero, List.take_length]

/-- A byte that was written reads back, if its element has a value (20_memory.md R51). -/
theorem readByte_written {s : State} {sp : Space} {addr : Nat} {v : List Byte} {j : Nat} (hj : j < v.length)
    (hlen : addr + j < (s.bytes sp).length) :
    (s.withBytes sp (overwrite (s.bytes sp) addr v)).readByte sp (addr + j) = .ok v[j] := by
  rw [State.readByte, bytes_withBytes (overwrite_length _ _ _), overwrite_getElem?, if_pos ⟨by omega, by omega, hlen⟩,
    Nat.add_sub_cancel_left, List.getElem?_eq_getElem hj]

/-- A byte that was not written reads as before (20_memory.md R51). -/
theorem readByte_unwritten {s : State} {sp sp' : Space} {addr i : Nat} {v : List Byte}
    (h : ¬ (sp' = sp ∧ addr ≤ i ∧ i < addr + v.length)) :
    (s.withBytes sp (overwrite (s.bytes sp) addr v)).readByte sp' i = s.readByte sp' i := by
  refine readByte_congr ?_ (size_congr (withBytes_cfg _ _ _) _)
  by_cases hsp : sp' = sp
  · subst hsp
    rw [bytes_withBytes (overwrite_length _ _ _), overwrite_getElem?, if_neg (by tauto)]
  · rw [bytes_withBytes_ne hsp]

/-- A write of as many elements as there are changes the stores' bytes alone, and no length. -/
theorem withBytes_frame (s : State) (sp : Space) {l : List Byte} (h : l.length = (s.bytes sp).length) :
    (s.withBytes sp l).ptr = s.ptr ∧ (s.withBytes sp l).key.length = s.key.length ∧
      s.withBytes sp l =
        { s with
          buf := (s.withBytes sp l).buf, key := (s.withBytes sp l).key, block := (s.withBytes sp l).block } := by
  cases sp with
  | buf => exact ⟨h, rfl, rfl⟩
  | key => exact ⟨rfl, h, rfl⟩
  | block => simp only [State.withBytes, State.ptr, and_self]

/-- A write over a whole store replaces its bytes. -/
theorem memWrite_whole {s : State} {sp : Space} {n : Nat} (v : Vector Byte n) (hn : (s.bytes sp).length = n)
    (hsize : n ≤ s.size sp) : s.memWrite sp 0 n v = .ok (s.withBytes sp v.toList) := by
  rw [memWrite_inside v (by simpa using hsize), overwrite_all (by rw [Vector.length_toList, hn])]

/-- A write of one character over the last of a list. -/
theorem overwrite_last (l : List Byte) (x c : Byte) : overwrite (l ++ [x]) l.length [c] = l ++ [c] := by
  simp [overwrite]

end Sys2Proof.Machine

namespace Sys2Proof.Proofs
open Sys2Proof.Machine

/-- Settles O53: a run of elements with a value reads as that part of the store, any other stops. -/
theorem memReadReturnsTheBytesLowestFirst : Obligations.MemReadReturnsTheBytesLowestFirst := by
  intro s sp addr n hw
  refine ⟨fun hsize hbuf => ?_, fun hsize hsp hptr hn => ?_, memRead_outside⟩
  · have hlen := access_le_length hw hsize hbuf
    refine ⟨_, memRead_ok hsize hlen, by simp; omega, fun j hj => ?_⟩
    have hj' : j < n := by simp at hj; omega
    rw [readByte_ok (by omega)]
    simp
  · subst hsp
    rw [memRead_inside hsize]
    exact readRun_undefined s .buf n addr hptr hsize hn

/-- Settles O54: a write replaces the elements it covers that have a value, and nothing else. -/
theorem memWriteWritesExactlyItsBytes : Obligations.MemWriteWritesExactlyItsBytes := by
  intro s sp addr n v hw
  refine ⟨fun hsize => ⟨_, memWrite_inside v hsize, fun j hj hbuf => ?_, fun sp' i h => ?_, ?_⟩, memWrite_outside v⟩
  · have hlen : addr + j < (s.bytes sp).length := access_le_length hw (by omega) hbuf
    exact readByte_written (by simpa using hj) hlen
  · exact readByte_unwritten (by simpa using h)
  · exact withBytes_frame s sp (overwrite_length _ _ _)

/-- Settles O55: an append overwrites the one element past the old cursor, every other access is of a whole store. -/
theorem storeAccessesAreReadsAndWrites : Obligations.StoreAccessesAreReadsAndWrites := by
  intro s hw
  obtain ⟨-, hkey⟩ := (wf_iff s).mp hw
  have hblock : (s.bytes .block).length = 16 := Vector.length_toList
  have hwrite : ∀ b' : Block, s.memWrite .block 0 16 b' = .ok { s with block := b' } := fun b' => by
    rw [memWrite_whole b' hblock le_rfl, State.withBytes, blockOfBytes_block]
  refine ⟨fun c x hroom => ?_, fun k => memWrite_whole k hkey le_rfl, fun b b' => ⟨hwrite b', hwrite b'⟩,
    memRead_payload hw, memRead_whole hkey le_rfl, memRead_whole hblock le_rfl⟩
  rw [memWrite_inside _ (by exact hroom), bytes_buf]
  simp only [State.withBytes, State.apply]
  rw [show (#v[c] : Vector Byte 1).toList = [c] from rfl, overwrite_last]

end Sys2Proof.Proofs
end
